-- ==== Sys2Proof/Word.lean ====
section
/-! DEFINITION. The bit-pattern types of 00_scope.md R9. -/

namespace Sys2Proof

/-- A stream byte: 8 bits (R9; 92_eei_decisions.md D1). -/
abbrev Byte := BitVec 8

/-- The `u16` bit patterns of displacements, addresses and word immediates (R9). -/
abbrev U16 := BitVec 16

/-- The 3-bit indices `reg` and `rm` and the 3-bit operation selector (R9). -/
abbrev U3 := BitVec 3

/-- The 2-bit mode field as it stands in a ModRM byte (R9). -/
abbrev U2 := BitVec 2

end Sys2Proof
end

