-- ==== Sys2Proof/Config.lean ====
section
/-! DEFINITION. The implementation parameters of 00_scope.md R7, at the values DFE takes.
`OFFSET_BITS` is open in the spec (92_eei_decisions.md D2): offsets are naturals and no constant stands for it.
The spec leaves no result value of an instruction undefined, so there is no free value here. -/

namespace Sys2Proof

/-- Header chunk size (R7, 45_sequencer.md R108). -/
def Config.headerChunk : Nat := 2

/-- `NEED_MAX`: the most trailing bytes one instruction can ask for (R7, 43_resolver.md R87). -/
def Config.needMax : Nat := 4

/-- The shortest instruction (R7, 30_encoding.md R46). -/
def Config.lenMin : Nat := 2

/-- `LEN_MAX`: the longest instruction (R7, 30_encoding.md R46). -/
def Config.lenMax : Nat := 6

/-- `START_OFFSET`: the first stream offset (R7). -/
def Config.startOffset : Nat := 0

/-- `STRICT_RESERVED`: false, the reserved field values of 30_encoding.md R48 are accepted (R7). -/
def Config.strictReserved : Bool := false

end Sys2Proof
end

