-- ==== Sys2Proof/Syntax.lean ====
section
/-! DEFINITION. The fixed sets of names of the spec, the seventeen instruction encodings as DFE holds them in its
instruction register (`Instr`, 10_state.md R16), and the operands and data a completed instruction carries (R18). -/

namespace Sys2Proof

/-- The width `w`: 0 byte, 1 word (30_encoding.md R38). -/
inductive Width where
  | byte | word
  deriving DecidableEq, Repr

/-- The four addressing modes of 30_encoding.md R41, in the order of their encodings 00, 01, 10, 11. -/
inductive Mode where
  | memNoDisp | memByteDisp | memWordDisp | register
  deriving DecidableEq, Repr

/-- The four arithmetic operations of 42_arith.md R67. -/
inductive ArithOp where
  | add | sbb | sub | cmp
  deriving DecidableEq, Repr

/-- The opcode class `op` of 10_state.md R16: mov or one of the four arithmetic operations. -/
inductive Op where
  | mov
  | arith (a : ArithOp)
  deriving DecidableEq, Repr

/-- The five classifier families of 40_classifier.md R52. -/
inductive Family where
  | movImmReg | movImmRm | movRmReg | movAccMem | arith
  deriving DecidableEq, Repr

/-- The five byte layouts of 30_encoding.md R37. -/
inductive Form where
  | rmReg | immRm | immReg | accMem | immAcc
  deriving DecidableEq, Repr

/-- The four error kinds of 60_exceptions.md R119. `NONE` is the absence of an error, not a kind. -/
inductive ErrorKind where
  | unrecognizedOpcode | unknownArithmeticOp | invalidMode | truncatedStream
  deriving DecidableEq, Repr

/-- The seventeen instruction encodings of 30_encoding.md R44, one constructor per row of opcode_table.json, each with
the fields the header transaction extracts for it and no other (10_state.md R16, 70_reset_and_hazards.md R146).
`d`: direction, true when the register field names the destination (R39). `s`: sign extension (R40).
`b1`: the second byte of the header chunk where it is data (43_resolver.md R86).
The arithmetic `RmImm` rows carry no `reg`: there it is the selector, fixed by the constructor (42_arith.md R69). -/
inductive Instr where
  /-- mov r/m, reg and mov reg, r/m (41_mov.md R62). -/
  | movRmReg (d : Bool) (w : Width) (mode : Mode) (reg rm : U3)
  /-- mov r/m, imm (41_mov.md R63); `reg` is recorded and not used. -/
  | movRmImm (w : Width) (mode : Mode) (reg rm : U3)
  /-- mov reg, imm (41_mov.md R64). -/
  | movRegImm (w : Width) (reg : U3) (b1 : Byte)
  /-- mov acc, [addr] (41_mov.md R65). -/
  | movAccAddr (w : Width) (b1 : Byte)
  /-- mov [addr], acc (41_mov.md R66). -/
  | movAddrAcc (w : Width) (b1 : Byte)
  /-- add r/m, reg and add reg, r/m (42_arith.md R71). -/
  | addRmReg (d : Bool) (w : Width) (mode : Mode) (reg rm : U3)
  /-- add r/m, imm (42_arith.md R75). -/
  | addRmImm (s : Bool) (w : Width) (mode : Mode) (rm : U3)
  /-- add acc, imm (42_arith.md R79). -/
  | addAccImm (w : Width) (b1 : Byte)
  /-- sbb r/m, reg and sbb reg, r/m (42_arith.md R72). -/
  | sbbRmReg (d : Bool) (w : Width) (mode : Mode) (reg rm : U3)
  /-- sbb r/m, imm (42_arith.md R76). -/
  | sbbRmImm (s : Bool) (w : Width) (mode : Mode) (rm : U3)
  /-- sbb acc, imm (42_arith.md R80). -/
  | sbbAccImm (w : Width) (b1 : Byte)
  /-- sub r/m, reg and sub reg, r/m (42_arith.md R73). -/
  | subRmReg (d : Bool) (w : Width) (mode : Mode) (reg rm : U3)
  /-- sub r/m, imm (42_arith.md R77). -/
  | subRmImm (s : Bool) (w : Width) (mode : Mode) (rm : U3)
  /-- sub acc, imm (42_arith.md R81). -/
  | subAccImm (w : Width) (b1 : Byte)
  /-- cmp r/m, reg and cmp reg, r/m (42_arith.md R74). -/
  | cmpRmReg (d : Bool) (w : Width) (mode : Mode) (reg rm : U3)
  /-- cmp r/m, imm (42_arith.md R78). -/
  | cmpRmImm (s : Bool) (w : Width) (mode : Mode) (rm : U3)
  /-- cmp acc, imm (42_arith.md R82). -/
  | cmpAccImm (w : Width) (b1 : Byte)
  deriving DecidableEq, Repr

/-- An immediate: a `Byte` when `w = 0`, a `u16` when `w = 1` (10_state.md R18, 43_resolver.md R90). -/
inductive Imm where
  | byte (v : Byte)
  | word (v : U16)
  deriving DecidableEq, Repr

/-- The operand descriptors `REG`, `MEM`, `DIRECT` and `IMM` of 10_state.md R18. -/
inductive Operand where
  | reg (w : Width) (idx : U3)
  | mem (rm : U3) (disp : Option U16)
  | direct (addr : U16)
  | imm (v : Imm)
  deriving DecidableEq, Repr

/-- What the trailing transaction attaches to the instruction: `disp`, `imm` or `addr`, by form (10_state.md R18). -/
inductive Attached where
  | rmReg (disp : Option U16)
  | immRm (disp : Option U16) (imm : Imm)
  | immReg (imm : Imm)
  | accMem (addr : U16)
  | immAcc (imm : Imm)
  deriving DecidableEq, Repr

end Sys2Proof
end

