-- ==== Sys2Proof/WellFormed.lean ====
section
/-! DEFINITION. Which instructions are well formed, and which attached data a well-formed instruction can carry.
The shapes are written here from the tables of 30_encoding.md R46 and 10_state.md R18, apart from the decoder. -/

namespace Sys2Proof

/-- The instruction uses a field value that 30_encoding.md R48 calls reserved: mov r/m, imm with reg other than 000,
or an arithmetic immediate with `s = 1` and `w = 0` (byte 0 = 0x82). -/
def Instr.reserved : Instr → Bool
  | .movRmImm _ _ reg _ => reg != 0
  | .addRmImm s w _ _ | .sbbRmImm s w _ _ | .subRmImm s w _ _ | .cmpRmImm s w _ _ => s && w == .byte
  | .movRmReg .. | .addRmReg .. | .sbbRmReg .. | .subRmReg .. | .cmpRmReg .. => false
  | .movRegImm .. | .movAccAddr .. | .movAddrAcc .. => false
  | .addAccImm .. | .sbbAccImm .. | .subAccImm .. | .cmpAccImm .. => false

/-- With `STRICT_RESERVED` true a model may exclude the reserved values by premise; at DFE's value false every
instruction is well formed (00_scope.md R7, 93_implementation_defined.md U3, U4). -/
def Instr.wellFormed (strict : Bool) (i : Instr) : Bool :=
  !(strict && i.reserved)

/-- The low byte of a 16-bit value. -/
def lowByte (v : U16) : Byte := v.setWidth 8

/-- The value is a sign-extended byte. -/
def isSextByte (v : U16) : Bool := v == (lowByte v).signExtend 16

/-- A displacement is present exactly when the mode has one, a byte displacement is a sign-extended byte, and mode 00
with rm 110 has the two-byte direct address (43_resolver.md R83, R84, R89). -/
def dispFits (mode : Mode) (rm : U3) : Option U16 → Bool
  | none => mode == .register || (mode == .memNoDisp && rm != 0b110)
  | some v =>
    match mode with
    | .memNoDisp => rm == 0b110
    | .memByteDisp => isSextByte v
    | .memWordDisp => true
    | .register => false

/-- An immediate has the width of the operands, and with `s` set a word immediate is a sign-extended byte (R90). -/
def immFits (s : Bool) (w : Width) : Imm → Bool
  | .byte _ => w == .byte
  | .word v => w == .word && (!s || isSextByte v)

/-- In the forms without a ModRM byte the low byte of the immediate is the header chunk's second byte (R86). -/
def immFitsHeader (w : Width) (b1 : Byte) : Imm → Bool
  | .byte v => w == .byte && v == b1
  | .word v => w == .word && lowByte v == b1

/-- The attached data `a` has the shape instruction `i` gives it. -/
def Instr.fits (i : Instr) (a : Attached) : Bool :=
  match i with
  | .movRmReg _ _ mode _ rm | .addRmReg _ _ mode _ rm | .sbbRmReg _ _ mode _ rm
  | .subRmReg _ _ mode _ rm | .cmpRmReg _ _ mode _ rm =>
    match a with
    | .rmReg disp => dispFits mode rm disp
    | .immRm .. | .immReg .. | .accMem .. | .immAcc .. => false
  | .movRmImm w mode _ rm =>
    match a with
    | .immRm disp imm => dispFits mode rm disp && immFits false w imm
    | .rmReg .. | .immReg .. | .accMem .. | .immAcc .. => false
  | .addRmImm s w mode rm | .sbbRmImm s w mode rm | .subRmImm s w mode rm | .cmpRmImm s w mode rm =>
    match a with
    | .immRm disp imm => dispFits mode rm disp && immFits s w imm
    | .rmReg .. | .immReg .. | .accMem .. | .immAcc .. => false
  | .movRegImm w _ b1 =>
    match a with
    | .immReg imm => immFitsHeader w b1 imm
    | .rmReg .. | .immRm .. | .accMem .. | .immAcc .. => false
  | .movAccAddr _ b1 | .movAddrAcc _ b1 =>
    match a with
    | .accMem addr => lowByte addr == b1
    | .rmReg .. | .immRm .. | .immReg .. | .immAcc .. => false
  | .addAccImm w b1 | .sbbAccImm w b1 | .subAccImm w b1 | .cmpAccImm w b1 =>
    match a with
    | .immAcc imm => immFitsHeader w b1 imm
    | .rmReg .. | .immRm .. | .immReg .. | .accMem .. => false

end Sys2Proof
end

