-- ==== Sys2Proof/Decode.lean ====
section
/-! DEFINITION. The opcode classifier (40_classifier.md), the header decoder (41_mov.md, 42_arith.md), the fields of the
instruction register (10_state.md R16), and after them the encoder, written from the same encodings of 30_encoding.md R44. -/

namespace Sys2Proof

/-! Bit fields of the header chunk (30_encoding.md R38 to R43). -/

/-- A width from its bit: 0 byte, 1 word (R38). -/
def Width.ofBit (b : Bool) : Width := if b then .word else .byte

/-- A mode from its two bits (R41). -/
def Mode.ofBits (v : U2) : Mode :=
  if v = 0b00 then .memNoDisp
  else if v = 0b01 then .memByteDisp
  else if v = 0b10 then .memWordDisp
  else .register

/-- `w` in bit 0 of byte 0 (R38). -/
def widthOf (b0 : Byte) : Width := Width.ofBit (b0.getLsbD 0)

/-- `w` in bit 3 of byte 0, form IMM_REG only (R38, R42). -/
def widthOfImmReg (b0 : Byte) : Width := Width.ofBit (b0.getLsbD 3)

/-- Bit 1 of byte 0: `d` in the form RM_REG (R39), `s` in arithmetic IMM_RM (R40), `t` in ACC_MEM (R43). -/
def bit1Of (b0 : Byte) : Bool := b0.getLsbD 1

/-- The register index in bits 2:0 of byte 0, form IMM_REG (R42). -/
def regOfOpcode (b0 : Byte) : U3 := b0.extractLsb' 0 3

/-- The selector in bits 5:3 of byte 0 (42_arith.md R68). -/
def selOfOpcode (b0 : Byte) : U3 := b0.extractLsb' 3 3

/-- ModRM bits 7:6 (R41). -/
def modeOf (b1 : Byte) : Mode := Mode.ofBits (b1.extractLsb' 6 2)

/-- ModRM bits 5:3 (R41). -/
def regOf (b1 : Byte) : U3 := b1.extractLsb' 3 3

/-- ModRM bits 2:0 (R41). -/
def rmOf (b1 : Byte) : U3 := b1.extractLsb' 0 3

/-- The operation selector, the same codes in byte 0 and in the ModRM reg field (42_arith.md R67). -/
def sel (v : U3) : Option ArithOp :=
  if v = 0b000 then some .add
  else if v = 0b011 then some .sbb
  else if v = 0b101 then some .sub
  else if v = 0b111 then some .cmp
  else none

/-! The classifier (40_classifier.md R52 to R60). -/

/-- What a row of the classifier table contributes: its family, form and operation (R53), and with them the field
extractor it selects (R58). -/
inductive Layout where
  | movImmReg
  | movImmRm
  | movRmReg
  | movAccMem
  | arithRmReg (op : ArithOp)
  | arithImmRm
  | arithImmAcc (op : ArithOp)
  deriving DecidableEq, Repr

/-- The family column of R53. -/
def Layout.family : Layout → Family
  | .movImmReg => .movImmReg
  | .movImmRm => .movImmRm
  | .movRmReg => .movRmReg
  | .movAccMem => .movAccMem
  | .arithRmReg _ | .arithImmRm | .arithImmAcc _ => .arith

/-- The form column of R53. -/
def Layout.form : Layout → Form
  | .movImmReg => .immReg
  | .movImmRm | .arithImmRm => .immRm
  | .movRmReg | .arithRmReg _ => .rmReg
  | .movAccMem => .accMem
  | .arithImmAcc _ => .immAcc

/-- The op column of R53; `none` is its `(reg)`, resolved later from the ModRM reg field. -/
def Layout.op : Layout → Option Op
  | .movImmReg | .movImmRm | .movRmReg | .movAccMem => some .mov
  | .arithRmReg a | .arithImmAcc a => some (.arith a)
  | .arithImmRm => none

/-- A row of the table: `(b0 AND mask) = bits` selects `layout`. -/
structure ClassRow where
  mask : Byte
  bits : Byte
  layout : Layout
  deriving DecidableEq, Repr

/-- The ordered table of R53, rows 1 to 14 in priority order (R54). -/
def classifierTable : List ClassRow := [
  ⟨0xF0, 0xB0, .movImmReg⟩,
  ⟨0xFE, 0xC6, .movImmRm⟩,
  ⟨0xFC, 0x88, .movRmReg⟩,
  ⟨0xFE, 0xA0, .movAccMem⟩,
  ⟨0xFE, 0xA2, .movAccMem⟩,
  ⟨0xFC, 0x00, .arithRmReg .add⟩,
  ⟨0xFC, 0x18, .arithRmReg .sbb⟩,
  ⟨0xFC, 0x28, .arithRmReg .sub⟩,
  ⟨0xFC, 0x38, .arithRmReg .cmp⟩,
  ⟨0xFC, 0x80, .arithImmRm⟩,
  ⟨0xFE, 0x04, .arithImmAcc .add⟩,
  ⟨0xFE, 0x1C, .arithImmAcc .sbb⟩,
  ⟨0xFE, 0x2C, .arithImmAcc .sub⟩,
  ⟨0xFE, 0x3C, .arithImmAcc .cmp⟩]

/-- A byte matches a row (R53). -/
def ClassRow.accepts (b0 : Byte) (r : ClassRow) : Bool := b0 &&& r.mask == r.bits

/-- `classify`: the first matching row, or `none` for `UnrecognizedOpcode` (R52, R53). -/
def classify (b0 : Byte) : Option ClassRow := classifierTable.find? (ClassRow.accepts b0)

/-! The field extractors (40_classifier.md R58) and the decoder. -/

/-- Arithmetic RM_REG, by the row's operation (42_arith.md R71 to R74). -/
def rmRegInstr (op : ArithOp) (d : Bool) (w : Width) (mode : Mode) (reg rm : U3) : Instr :=
  match op with
  | .add => .addRmReg d w mode reg rm
  | .sbb => .sbbRmReg d w mode reg rm
  | .sub => .subRmReg d w mode reg rm
  | .cmp => .cmpRmReg d w mode reg rm

/-- Arithmetic IMM_RM, by the ModRM reg field's operation (42_arith.md R75 to R78). -/
def rmImmInstr (op : ArithOp) (s : Bool) (w : Width) (mode : Mode) (rm : U3) : Instr :=
  match op with
  | .add => .addRmImm s w mode rm
  | .sbb => .sbbRmImm s w mode rm
  | .sub => .subRmImm s w mode rm
  | .cmp => .cmpRmImm s w mode rm

/-- Arithmetic IMM_ACC, by the row's operation (42_arith.md R79 to R82). -/
def accImmInstr (op : ArithOp) (w : Width) (b1 : Byte) : Instr :=
  match op with
  | .add => .addAccImm w b1
  | .sbb => .sbbAccImm w b1
  | .sub => .subAccImm w b1
  | .cmp => .cmpAccImm w b1

/-- The five-way dispatch of R58 on a classified header chunk. The one failure is the arithmetic immediate whose
selector is not recognized (42_arith.md R69, R70). -/
def extract (l : Layout) (b0 b1 : Byte) : Except ErrorKind Instr :=
  match l with
  | .movRmReg => .ok (.movRmReg (bit1Of b0) (widthOf b0) (modeOf b1) (regOf b1) (rmOf b1))
  | .movImmRm => .ok (.movRmImm (widthOf b0) (modeOf b1) (regOf b1) (rmOf b1))
  | .movImmReg => .ok (.movRegImm (widthOfImmReg b0) (regOfOpcode b0) b1)
  | .movAccMem => .ok (if bit1Of b0 then .movAddrAcc (widthOf b0) b1 else .movAccAddr (widthOf b0) b1)
  | .arithRmReg op => .ok (rmRegInstr op (bit1Of b0) (widthOf b0) (modeOf b1) (regOf b1) (rmOf b1))
  | .arithImmRm =>
    match sel (regOf b1) with
    | some op => .ok (rmImmInstr op (bit1Of b0) (widthOf b0) (modeOf b1) (rmOf b1))
    | none => .error .unknownArithmeticOp
  | .arithImmAcc op => .ok (accImmInstr op (widthOf b0) b1)

/-- The outcomes of decoding a header: an instruction and the bytes after its chunk, a clean end of the stream, or an
error by name. -/
inductive Decoded where
  | instr (i : Instr) (rest : List Byte)
  | endOfStream
  | error (k : ErrorKind)
  deriving DecidableEq, Repr

/-- The header decoder on any byte list: nothing left is the end of the stream, one byte is classified and then
truncated, two bytes are classified and extracted (45_sequencer.md R110, R111; the order of checks is
60_exceptions.md R124). -/
def decode : List Byte → Decoded
  | [] => .endOfStream
  | [b0] =>
    match classify b0 with
    | none => .error .unrecognizedOpcode
    | some _ => .error .truncatedStream
  | b0 :: b1 :: rest =>
    match classify b0 with
    | none => .error .unrecognizedOpcode
    | some row =>
      match extract row.layout b0 b1 with
      | .ok i => .instr i rest
      | .error k => .error k

/-! The fields of `ir` (10_state.md R16). A field a form does not have is `none` (70_reset_and_hazards.md R146). -/

/-- `ir.family`. -/
def Instr.family : Instr → Family
  | .movRmReg .. => .movRmReg
  | .movRmImm .. => .movImmRm
  | .movRegImm .. => .movImmReg
  | .movAccAddr .. | .movAddrAcc .. => .movAccMem
  | .addRmReg .. | .addRmImm .. | .addAccImm .. => .arith
  | .sbbRmReg .. | .sbbRmImm .. | .sbbAccImm .. => .arith
  | .subRmReg .. | .subRmImm .. | .subAccImm .. => .arith
  | .cmpRmReg .. | .cmpRmImm .. | .cmpAccImm .. => .arith

/-- `ir.form`. -/
def Instr.form : Instr → Form
  | .movRmReg .. | .addRmReg .. | .sbbRmReg .. | .subRmReg .. | .cmpRmReg .. => .rmReg
  | .movRmImm .. | .addRmImm .. | .sbbRmImm .. | .subRmImm .. | .cmpRmImm .. => .immRm
  | .movRegImm .. => .immReg
  | .movAccAddr .. | .movAddrAcc .. => .accMem
  | .addAccImm .. | .sbbAccImm .. | .subAccImm .. | .cmpAccImm .. => .immAcc

/-- `ir.op`. -/
def Instr.op : Instr → Op
  | .movRmReg .. | .movRmImm .. | .movRegImm .. | .movAccAddr .. | .movAddrAcc .. => .mov
  | .addRmReg .. | .addRmImm .. | .addAccImm .. => .arith .add
  | .sbbRmReg .. | .sbbRmImm .. | .sbbAccImm .. => .arith .sbb
  | .subRmReg .. | .subRmImm .. | .subAccImm .. => .arith .sub
  | .cmpRmReg .. | .cmpRmImm .. | .cmpAccImm .. => .arith .cmp

/-- `ir.w`. -/
def Instr.w : Instr → Width
  | .movRmReg _ w .. | .addRmReg _ w .. | .sbbRmReg _ w .. | .subRmReg _ w .. | .cmpRmReg _ w .. => w
  | .addRmImm _ w .. | .sbbRmImm _ w .. | .subRmImm _ w .. | .cmpRmImm _ w .. => w
  | .movRmImm w .. | .movRegImm w .. | .movAccAddr w _ | .movAddrAcc w _ => w
  | .addAccImm w _ | .sbbAccImm w _ | .subAccImm w _ | .cmpAccImm w _ => w

/-- `ir.d`, form RM_REG only. -/
def Instr.d : Instr → Option Bool
  | .movRmReg d .. | .addRmReg d .. | .sbbRmReg d .. | .subRmReg d .. | .cmpRmReg d .. => some d
  | .movRmImm .. | .movRegImm .. | .movAccAddr .. | .movAddrAcc .. => none
  | .addRmImm .. | .sbbRmImm .. | .subRmImm .. | .cmpRmImm .. => none
  | .addAccImm .. | .sbbAccImm .. | .subAccImm .. | .cmpAccImm .. => none

/-- `ir.s`, form IMM_RM only; constant 0 for mov. -/
def Instr.s : Instr → Option Bool
  | .addRmImm s .. | .sbbRmImm s .. | .subRmImm s .. | .cmpRmImm s .. => some s
  | .movRmImm .. => some false
  | .movRmReg .. | .addRmReg .. | .sbbRmReg .. | .subRmReg .. | .cmpRmReg .. => none
  | .movRegImm .. | .movAccAddr .. | .movAddrAcc .. => none
  | .addAccImm .. | .sbbAccImm .. | .subAccImm .. | .cmpAccImm .. => none

/-- `ir.mode`, forms RM_REG and IMM_RM. -/
def Instr.mode : Instr → Option Mode
  | .movRmReg _ _ m .. | .addRmReg _ _ m .. | .sbbRmReg _ _ m .. | .subRmReg _ _ m .. | .cmpRmReg _ _ m .. => some m
  | .addRmImm _ _ m _ | .sbbRmImm _ _ m _ | .subRmImm _ _ m _ | .cmpRmImm _ _ m _ => some m
  | .movRmImm _ m .. => some m
  | .movRegImm .. | .movAccAddr .. | .movAddrAcc .. => none
  | .addAccImm .. | .sbbAccImm .. | .subAccImm .. | .cmpAccImm .. => none

/-- `ir.reg`, forms RM_REG, IMM_RM (in the arithmetic family the raw selector bits) and IMM_REG. -/
def Instr.reg : Instr → Option U3
  | .movRmReg _ _ _ r _ | .addRmReg _ _ _ r _ | .sbbRmReg _ _ _ r _ | .subRmReg _ _ _ r _ | .cmpRmReg _ _ _ r _ => some r
  | .movRmImm _ _ r _ => some r
  | .addRmImm .. => some 0
  | .sbbRmImm .. => some 3
  | .subRmImm .. => some 5
  | .cmpRmImm .. => some 7
  | .movRegImm _ r _ => some r
  | .movAccAddr .. | .movAddrAcc .. => none
  | .addAccImm .. | .sbbAccImm .. | .subAccImm .. | .cmpAccImm .. => none

/-- `ir.rm`, forms RM_REG and IMM_RM. -/
def Instr.rm : Instr → Option U3
  | .movRmReg _ _ _ _ r | .addRmReg _ _ _ _ r | .sbbRmReg _ _ _ _ r | .subRmReg _ _ _ _ r | .cmpRmReg _ _ _ _ r => some r
  | .addRmImm _ _ _ r | .sbbRmImm _ _ _ r | .subRmImm _ _ _ r | .cmpRmImm _ _ _ r => some r
  | .movRmImm _ _ _ r => some r
  | .movRegImm .. | .movAccAddr .. | .movAddrAcc .. => none
  | .addAccImm .. | .sbbAccImm .. | .subAccImm .. | .cmpAccImm .. => none

/-- `ir.to_mem`, form ACC_MEM only. -/
def Instr.toMem : Instr → Option Bool
  | .movAccAddr .. => some false
  | .movAddrAcc .. => some true
  | .movRmReg .. | .movRmImm .. | .movRegImm .. => none
  | .addRmReg .. | .addRmImm .. | .addAccImm .. => none
  | .sbbRmReg .. | .sbbRmImm .. | .sbbAccImm .. => none
  | .subRmReg .. | .subRmImm .. | .subAccImm .. => none
  | .cmpRmReg .. | .cmpRmImm .. | .cmpAccImm .. => none

/-- `ir.b1`, forms IMM_REG, ACC_MEM and IMM_ACC. -/
def Instr.b1 : Instr → Option Byte
  | .movRegImm _ _ b | .movAccAddr _ b | .movAddrAcc _ b => some b
  | .addAccImm _ b | .sbbAccImm _ b | .subAccImm _ b | .cmpAccImm _ b => some b
  | .movRmReg .. | .addRmReg .. | .sbbRmReg .. | .subRmReg .. | .cmpRmReg .. => none
  | .movRmImm .. | .addRmImm .. | .sbbRmImm .. | .subRmImm .. | .cmpRmImm .. => none

/-! The encoder. -/

/-- The bit of a width (30_encoding.md R38). -/
def Width.bit : Width → BitVec 1
  | .byte => 0
  | .word => 1

/-- The two bits of a mode (R41). -/
def Mode.bits : Mode → U2
  | .memNoDisp => 0b00
  | .memByteDisp => 0b01
  | .memWordDisp => 0b10
  | .register => 0b11

/-- The ModRM byte `mm rrr aaa` (R37, R41). -/
def modrm (mode : Mode) (reg rm : U3) : Byte := mode.bits ++ reg ++ rm

/-- Byte 0 with two field bits after a 6-bit prefix: `dw` or `sw` (R44). -/
def opcode6 (fixed : BitVec 6) (bit1 : Bool) (w : Width) : Byte := fixed ++ BitVec.ofBool bit1 ++ w.bit

/-- Byte 0 with `w` after a 7-bit prefix (R44). -/
def opcode7 (fixed : BitVec 7) (w : Width) : Byte := fixed ++ w.bit

/-- The header chunk of an instruction, from the byte 0 and byte 1 columns of R44. -/
def encode : Instr → List Byte
  | .movRmReg d w mode reg rm => [opcode6 0b100010 d w, modrm mode reg rm]
  | .movRmImm w mode reg rm => [opcode7 0b1100011 w, modrm mode reg rm]
  | .movRegImm w reg b1 => [(0b1011#4 ++ w.bit ++ reg : BitVec (4 + 1 + 3)), b1]
  | .movAccAddr w b1 => [opcode7 0b1010000 w, b1]
  | .movAddrAcc w b1 => [opcode7 0b1010001 w, b1]
  | .addRmReg d w mode reg rm => [opcode6 0b000000 d w, modrm mode reg rm]
  | .addRmImm s w mode rm => [opcode6 0b100000 s w, modrm mode 0b000 rm]
  | .addAccImm w b1 => [opcode7 0b0000010 w, b1]
  | .sbbRmReg d w mode reg rm => [opcode6 0b000110 d w, modrm mode reg rm]
  | .sbbRmImm s w mode rm => [opcode6 0b100000 s w, modrm mode 0b011 rm]
  | .sbbAccImm w b1 => [opcode7 0b0001110 w, b1]
  | .subRmReg d w mode reg rm => [opcode6 0b001010 d w, modrm mode reg rm]
  | .subRmImm s w mode rm => [opcode6 0b100000 s w, modrm mode 0b101 rm]
  | .subAccImm w b1 => [opcode7 0b0010110 w, b1]
  | .cmpRmReg d w mode reg rm => [opcode6 0b001110 d w, modrm mode reg rm]
  | .cmpRmImm s w mode rm => [opcode6 0b100000 s w, modrm mode 0b111 rm]
  | .cmpAccImm w b1 => [opcode7 0b0011110 w, b1]

/-- A 16-bit field in stream order, low byte first (20_memory.md R26). -/
def leBytes (v : U16) : List Byte := [v.extractLsb' 0 8, v.extractLsb' 8 8]

/-- The displacement bytes: none, the one low byte in mode 01, otherwise two (R41). -/
def dispBytes (mode : Mode) : Option U16 → List Byte
  | none => []
  | some v =>
    match mode with
    | .memByteDisp => [v.extractLsb' 0 8]
    | .memNoDisp | .memWordDisp | .register => leBytes v

/-- The immediate bytes: one when the width is byte or `s` is set, otherwise two (R40, 43_resolver.md R85). -/
def immBytes (s : Bool) : Imm → List Byte
  | .byte v => [v]
  | .word v => if s then [v.extractLsb' 0 8] else leBytes v

/-- The bytes after the header chunk: the displacement before the immediate, and in the forms without a ModRM byte only
what follows the byte the chunk already holds (R36, 43_resolver.md R86, R88). -/
def encodeTrailing (i : Instr) (a : Attached) : List Byte :=
  let mode := i.mode.getD .register
  match a with
  | .rmReg disp => dispBytes mode disp
  | .immRm disp imm => dispBytes mode disp ++ immBytes (i.s.getD false) imm
  | .immReg imm | .immAcc imm => (immBytes false imm).drop 1
  | .accMem addr => (leBytes addr).drop 1

/-- All the bytes of a completed instruction (30_encoding.md R36). -/
def encodeComplete (i : Instr) (a : Attached) : List Byte := encode i ++ encodeTrailing i a

/-! Words of opcode_table.json: bit 0 is the least significant bit of the first byte. -/

/-- The bytes of an instruction whose bits are `w`, zero above the `nbits` the table gives, up to the longest
instruction. -/
def tableBytes (nbits w : Nat) : List Byte :=
  (List.range Config.lenMax).map fun k => BitVec.ofNat 8 (w % 2 ^ nbits / 256 ^ k)

/-- The instruction the decoder reads from such a word, `none` where it answers an error. -/
def decodeTableWord (nbits w : Nat) : Option Instr :=
  match decode (tableBytes nbits w) with
  | .instr i _ => some i
  | .endOfStream | .error _ => none

end Sys2Proof
end

