-- ==== Sys2Proof/Machine/State.lean ====
section
/-! DEFINITION. The state of DFE (10_state.md R12 to R19) and of its caller (R11 b, R13), the record a completed
instruction becomes (R18), the transactions and their results (45_sequencer.md R107), and the state after reset (R24). -/

namespace Sys2Proof.Machine

/-- The three phases of 10_state.md R15. -/
inductive Phase where
  /-- No instruction is open. -/
  | idle
  /-- A header has been accepted and the instruction register is valid. -/
  | trailing
  /-- An error has been recorded; only reset leaves this phase. -/
  | halted
  deriving DecidableEq, Repr

/-- The instruction register and the three byte-count registers, which the header transaction writes together
(10_state.md R16, R17). -/
structure Latch where
  /-- The instruction register. -/
  ir : Instr
  /-- Displacement (or direct-address) bytes. -/
  ndisp : Nat
  /-- Immediate bytes. -/
  nimm : Nat
  /-- Bytes the caller must still supply after the header chunk. -/
  need : Nat
  deriving DecidableEq, Repr

/-- The error register while `err.kind` is not NONE (10_state.md R19). -/
structure ErrorReg where
  kind : ErrorKind
  offset : Nat
  deriving DecidableEq, Repr

/-- The record an accepted trailing transaction emits (10_state.md R18): every field of `ir`, the offset and length of the
instruction, the data attached to it, and its two operands. -/
structure Record where
  instr : Instr
  ioff : Nat
  len : Nat
  data : Attached
  dst : Operand
  src : Operand
  deriving DecidableEq, Repr

/-- What a transaction hands back to the caller (45_sequencer.md R110 to R112, 60_exceptions.md R125). -/
inductive Result where
  /-- An accepted header: the family and the count of bytes still needed. -/
  | header (family : Family) (need : Nat)
  /-- An empty chunk at an instruction boundary. -/
  | endOfStream
  /-- An accepted trailing transaction. -/
  | record (r : Record)
  /-- The error entry. -/
  | error (kind : ErrorKind) (offset : Nat)
  deriving DecidableEq, Repr

/-- What the caller can ask for (45_sequencer.md R107). `newRun` is the caller's preparation of a run, 70_reset_and_hazards.md
R139 in one: fix a stream, then `reset()`, with an empty list of records (45_sequencer.md R114). -/
inductive Call where
  | reset
  | newRun (bytes : List Byte)
  | header (chunk : List Byte)
  | trailing (bytes : List Byte)
  deriving DecidableEq, Repr

/-- The stream as cells: what an offset that is not listed reads as is "no byte" (`Memory.read`), since the stream has
bytes at 0..L-1 only (20_memory.md R25) and a missing byte is never read as any value (R35). -/
abbrev Memory := List Host.Cell

/-- The canonical form: offsets strictly rising. An unlisted offset has no byte, so no entry can equal it. -/
abbrev Memory.wf (m : Memory) : Prop := m.Pairwise fun a b => a.1 < b.1

/-- The cells are a stream: their offsets are 0..L-1 with `L` the number of cells (20_memory.md R25). -/
abbrev Memory.dense (m : Memory) : Prop := m.map Prod.fst = List.range m.length

/-- The state of DFE and of the caller. -/
structure State where
  /-- Offset of the next byte DFE has not consumed (R14). -/
  pos : Nat
  /-- Offset of the opcode byte of the open or last started instruction (R14). -/
  ioff : Nat
  /-- The phase (R15). -/
  phase : Phase
  /-- `ir`, `ndisp`, `nimm`, `need` (R16, R17); `none` when no instruction is latched (93_implementation_defined.md U1). -/
  latch : Option Latch
  /-- The error register (R19); `none` is `err.kind = NONE` (93_implementation_defined.md U2). -/
  err : Option ErrorReg
  /-- The input stream, a parameter of the run (R13 a). -/
  stream : Memory
  /-- The records handed to the caller so far, oldest first (R13 c); the caller's. -/
  out : List Record
  /-- The result of the last transaction, as the caller received it; the model's own field. -/
  result : Option Result
  /-- Transactions the caller has decided on beforehand, next first; the model's own field. With none pending the caller is
  the canonical one of 45_sequencer.md R114. -/
  calls : List Call
  deriving DecidableEq, Repr

/-- The state after reset (10_state.md R24) before the caller has chosen a stream. -/
def State.reset : State where
  pos := Config.startOffset
  ioff := 0
  phase := .idle
  latch := none
  err := none
  stream := []
  out := []
  result := none
  calls := []

/-- Why a step stops. -/
inductive Fault where
  /-- Raised by `step` when DFE is HALTED and the caller asks for nothing: the run is over and HALTED has no successor but
  reset (93_implementation_defined.md U9, 60_exceptions.md R127). Safe: a halted DFE does nothing further. -/
  | halted
  deriving DecidableEq, Repr

/-- Why a step has no meaning. -/
inductive Refusal where
  /-- Raised by an arm of `exec` that has no meaning yet. Safe: nothing can be proved of it. -/
  | notModelled (mnemonic : String)
  /-- Raised by `header` outside IDLE (45_sequencer.md R117). Safe: the spec gives such a transaction no meaning. -/
  | headerOutOfPhase
  /-- Raised by `trailing` outside TRAILING (R117). Safe, same reason. -/
  | trailingOutOfPhase
  /-- Raised by `header` on more than two bytes (R117). Safe, same reason. -/
  | headerTooLong
  /-- Raised by `trailing` on more than `need` bytes (R117). Safe, same reason. -/
  | trailingTooLong
  /-- Raised by `header` and `trailing` on a short list while the stream has the missing bytes (R117). Safe, same reason. -/
  | bytesWithheld
  /-- Raised by `header` and `trailing` on bytes that are not the stream's at `pos`: the stream is a fixed parameter of the
  run (20_memory.md R34, 93_implementation_defined.md U8). Safe: the model says nothing of such a run. -/
  | streamChanged
  /-- Raised by a meaning performed in HALTED: no decoding transaction is accepted there (10_state.md R15). Safe. -/
  | haltedAcceptsNothing
  /-- Raised in TRAILING for an instruction that is not the open one, and by `trailing` when none is latched
  (10_state.md R15: the next transaction is the trailing one of the same instruction). Safe; no reachable state raises it
  from a step of the canonical caller. -/
  | notOpenInstruction
  /-- Raised when the tail does not have the bytes its form needs; 43_resolver.md R88 excludes it. Safe, unreachable. -/
  | malformedTail
  deriving DecidableEq, Repr

end Sys2Proof.Machine
end

