-- ==== Sys2Proof/Machine/Ops.lean ====
section
/-! DEFINITION. The operations over the stream, the effects of the transactions on the state (45_sequencer.md), the error
entry (60_exceptions.md R125) and the one way out of it, reset (70_reset_and_hazards.md R136). -/

namespace Sys2Proof.Machine

/-! The stream. -/

/-- `Stream[a]`, `none` where the stream has no byte (20_memory.md R25, R35). -/
def Memory.read : Memory → Nat → Option Byte
  | [], _ => none
  | c :: m, a => if c.1 = a then some c.2 else Memory.read m a

/-- The bytes the canonical caller hands over: `Stream[a .. a + min(n, L - a) - 1]`, in order (45_sequencer.md R114). -/
def Memory.window (m : Memory) (a : Nat) : Nat → List Byte
  | 0 => []
  | n + 1 =>
    match Memory.read m a with
    | none => []
    | some b => b :: Memory.window m (a + 1) n

/-- The caller's placing of one byte before a run. DFE itself writes no memory (00_scope.md R10). -/
def Memory.write (a : Nat) (b : Byte) : Memory → Memory
  | [] => [(a, b)]
  | c :: m =>
    if a < c.1 then (a, b) :: c :: m
    else if a = c.1 then (a, b) :: m
    else c :: Memory.write a b m

/-- The caller's placing of consecutive bytes. -/
def Memory.writeBytes (m : Memory) (a : Nat) : List Byte → Memory
  | [] => m
  | b :: bs => Memory.writeBytes (Memory.write a b m) (a + 1) bs

/-- The cells of a byte list from offset `a` on. -/
def Memory.ofBytesFrom (a : Nat) : List Byte → Memory
  | [] => []
  | b :: bs => (a, b) :: Memory.ofBytesFrom (a + 1) bs

/-- The stream whose bytes are `bs` (20_memory.md R25). -/
def Memory.ofBytes (bs : List Byte) : Memory := Memory.ofBytesFrom 0 bs

/-! The error entry and reset. -/

/-- `raise k`, the error entry of 60_exceptions.md R125. The failing transaction has not moved `pos`; `ioff` is the offset
of the failing instruction's opcode byte; the latched registers are left as they are. -/
def State.raise (s : State) (k : ErrorKind) : State :=
  { s with
    err := some ⟨k, s.ioff⟩
    phase := .halted
    result := some (.error k s.ioff) }

/-- `reset()`, the only way out of HALTED (70_reset_and_hazards.md R136, 60_exceptions.md R127). The stream and the records
already handed over are the caller's and stay (10_state.md R13). -/
def State.resetDfe (s : State) : State :=
  { s with
    pos := Config.startOffset
    ioff := 0
    phase := .idle
    latch := none
    err := none
    result := none }

/-- The start of a run: the caller fixes a stream, resets DFE and holds no records (R138, R139, 45_sequencer.md R114). -/
def State.newRun (s : State) (bytes : List Byte) : State :=
  { s.resetDfe with
    stream := Memory.ofBytes bytes
    out := [] }

/-! The header transaction. -/

/-- An empty chunk at an instruction boundary changes nothing in DFE (45_sequencer.md R111). -/
def State.endOfStream (s : State) : State :=
  { s with result := some .endOfStream }

/-- An error in the header transaction: `ioff` has been written, nothing else (45_sequencer.md R110, R111). -/
def State.raiseHeader (s : State) (k : ErrorKind) : State :=
  State.raise { s with ioff := s.pos } k

/-- An accepted header (45_sequencer.md R110): the registers of 10_state.md R16 and R17 are written, two bytes are
consumed, and the caller learns the family and `need`. -/
def State.openHeader (s : State) (l : Latch) : State :=
  { s with
    ioff := s.pos
    latch := some l
    pos := s.pos + 2
    phase := .trailing
    result := some (.header l.ir.family l.need) }

/-! The trailing transaction. -/

/-- What the trailing step of an instruction rule builds: the attached data and the two operands (10_state.md R18). -/
structure Finished where
  data : Attached
  dst : Operand
  src : Operand
  deriving DecidableEq, Repr

/-- The record of 45_sequencer.md R112. -/
def Finished.record (f : Finished) (s : State) (l : Latch) : Record :=
  { instr := l.ir, ioff := s.ioff, len := 2 + l.need, data := f.data, dst := f.dst, src := f.src }

/-- An accepted trailing transaction (R112): the record goes to the caller, `need` bytes are consumed, and the latched
registers hold no value any more (10_state.md R12, 93_implementation_defined.md U1). -/
def State.emit (s : State) (l : Latch) (r : Record) : State :=
  { s with
    pos := s.pos + l.need
    phase := .idle
    latch := none
    out := s.out ++ [r]
    result := some (.record r) }

/-- The trailing transaction of the instruction latched as `l` (R112, R113): the `need` bytes at `pos`, with the byte the
header chunk already holds (`lead`) before them, are the tail `build` reads (43_resolver.md R88). -/
def closeTrailing (l : Latch) (lead : List Byte) (build : List Byte → Option Finished) (s : State) :
    Host.Outcome State Fault Refusal :=
  if s.latch = some l then
    let bytes := s.stream.window s.pos l.need
    if bytes.length < l.need then .next (s.raise .truncatedStream)
    else
      match build (lead ++ bytes) with
      | some f => .next (s.emit l (f.record s l))
      | none => .refused .malformedTail
  else .refused .notOpenInstruction

/-- The two steps of every instruction rule, by phase (45_sequencer.md R109): in IDLE its header step, in TRAILING its
trailing step. -/
def transact (l : Latch) (lead : List Byte) (build : List Byte → Option Finished) (s : State) :
    Host.Outcome State Fault Refusal :=
  match s.phase with
  | .idle => .next (s.openHeader l)
  | .trailing => closeTrailing l lead build s
  | .halted => .refused .haltedAcceptsNothing

end Sys2Proof.Machine
end

