-- ==== Sys2Proof/Machine/Operands.lean ====
section
/-! DEFINITION. The displacement parser and the register/mode multiplexer (43_resolver.md): the pure functions the
instruction rules call, and the trailing step of each form. -/

namespace Sys2Proof

/-! Sizes. -/

/-- The direct-address exception, one predicate for sizing and for the operand (43_resolver.md R84). -/
def isDirect (mode : Mode) (rm : U3) : Bool := mode == .memNoDisp && rm == 0b110

/-- `disp_count` (R83). -/
def dispCount (mode : Mode) (rm : U3) : Nat :=
  match mode with
  | .memNoDisp => if isDirect mode rm then 2 else 0
  | .memByteDisp => 1
  | .memWordDisp => 2
  | .register => 0

/-- `nimm` of IMM_REG, IMM_ACC and mov IMM_RM (R85). -/
def immCount (w : Width) : Nat :=
  match w with
  | .byte => 1
  | .word => 2

/-- `nimm` of arithmetic IMM_RM: 2 if `s = 0` and `w = 1`, else 1 (R85). -/
def immCountSigned (s : Bool) (w : Width) : Nat := if s then 1 else immCount w

/-- `ndisp` by form (R87). -/
def Instr.ndisp (i : Instr) : Nat :=
  match i with
  | .movRmReg _ _ mode _ rm | .addRmReg _ _ mode _ rm | .sbbRmReg _ _ mode _ rm
  | .subRmReg _ _ mode _ rm | .cmpRmReg _ _ mode _ rm => dispCount mode rm
  | .movRmImm _ mode _ rm => dispCount mode rm
  | .addRmImm _ _ mode rm | .sbbRmImm _ _ mode rm | .subRmImm _ _ mode rm | .cmpRmImm _ _ mode rm => dispCount mode rm
  | .movAccAddr .. | .movAddrAcc .. => 2
  | .movRegImm .. | .addAccImm .. | .sbbAccImm .. | .subAccImm .. | .cmpAccImm .. => 0

/-- `nimm` by form (R85). -/
def Instr.nimm (i : Instr) : Nat :=
  match i with
  | .movRmReg .. | .addRmReg .. | .sbbRmReg .. | .subRmReg .. | .cmpRmReg .. => 0
  | .movAccAddr .. | .movAddrAcc .. => 0
  | .addRmImm s w .. | .sbbRmImm s w .. | .subRmImm s w .. | .cmpRmImm s w .. => immCountSigned s w
  | .movRmImm w .. | .movRegImm w .. => immCount w
  | .addAccImm w _ | .sbbAccImm w _ | .subAccImm w _ | .cmpAccImm w _ => immCount w

/-- `need` by form (R87): the chunk of a form without a ModRM byte already holds one data byte. -/
def Instr.need (i : Instr) : Nat :=
  match i.form with
  | .rmReg | .immRm => i.ndisp + i.nimm
  | .immReg | .accMem | .immAcc => i.ndisp + i.nimm - 1

/-- The registers an accepted header of `i` leaves (10_state.md R17: the counts are functions of `ir`). -/
def Instr.latched (i : Instr) : Machine.Latch := ⟨i, i.ndisp, i.nimm, i.need⟩

/-! Values. -/

/-- `le16(lo, hi) = hi * 256 + lo` (00_scope.md R9, 20_memory.md R26). -/
def le16 (lo hi : Byte) : U16 := BitVec.ofNat 16 (hi.toNat * 256 + lo.toNat)

/-- `sext_16` (R9, 43_resolver.md R98). -/
def sext16 (b : Byte) : U16 := b.signExtend 16

/-- `disp_value` of the displacement bytes (R89): absent, one byte sign-extended, or two bytes little-endian. -/
def dispValue : List Byte → Option U16
  | [] => none
  | [b] => some (sext16 b)
  | lo :: hi :: _ => some (le16 lo hi)

/-- `imm_value` (R90), `none` outside its three cases. -/
def immValue (w : Width) (s : Bool) (bytes : List Byte) : Option Imm :=
  match w, s, bytes with
  | .byte, _, [b] => some (.byte b)
  | .word, false, [lo, hi] => some (.word (le16 lo hi))
  | .word, true, [b] => some (.word (sext16 b))
  | _, _, _ => none

/-! Registers. -/

/-- The sixteen register names DFE can emit (10_state.md R20). -/
inductive RegName where
  | al | cl | dl | bl | ah | ch | dh | bh
  | ax | cx | dx | bx | sp | bp | si | di
  deriving DecidableEq, Repr

/-- The byte registers by index (R91). -/
def byteRegs : Vector RegName 8 := #v[.al, .cl, .dl, .bl, .ah, .ch, .dh, .bh]

/-- The word registers by index (R92). -/
def wordRegs : Vector RegName 8 := #v[.ax, .cx, .dx, .bx, .sp, .bp, .si, .di]

/-- `reg_name` (R93). -/
def regName (w : Width) (idx : U3) : RegName :=
  match w with
  | .byte => byteRegs[idx.toFin]
  | .word => wordRegs[idx.toFin]

/-- The accumulator `REG(w, 0)` (R97). -/
def accumulator (w : Width) : Operand := .reg w 0

/-! The mode multiplexer. -/

/-- The base registers of the effective-address table by rm (R94). -/
def eaBase : Vector (Option RegName) 8 :=
  #v[some .bx, some .bx, some .bp, some .bp, none, none, some .bp, some .bx]

/-- The index registers of the effective-address table by rm (R94). -/
def eaIndex : Vector (Option RegName) 8 :=
  #v[some .si, some .di, some .si, some .di, some .si, some .di, none, none]

/-- `rm_operand` (R95). The direct address is the displacement; it is always present there (R83), and without it there
is no operand. -/
def rmOperand (mode : Mode) (w : Width) (rm : U3) (disp : Option U16) : Option Operand :=
  if mode = .register then some (.reg w rm)
  else if isDirect mode rm then disp.map .direct
  else some (.mem rm disp)

/-- `rec.dst` and `rec.src` of RM_REG, by direction (R96). -/
def orderByDirection (d : Bool) (regop rmop : Operand) : Operand × Operand :=
  if d then (regop, rmop) else (rmop, regop)

/-- The two operands of a record by form (R96), read off the instruction and its attached data. -/
def Instr.operands (i : Instr) (a : Attached) : Option (Operand × Operand) :=
  match i with
  | .movRmReg d w mode reg rm | .addRmReg d w mode reg rm | .sbbRmReg d w mode reg rm
  | .subRmReg d w mode reg rm | .cmpRmReg d w mode reg rm =>
    match a with
    | .rmReg disp => (rmOperand mode w rm disp).map (orderByDirection d (.reg w reg))
    | .immRm .. | .immReg .. | .accMem .. | .immAcc .. => none
  | .movRmImm w mode _ rm
  | .addRmImm _ w mode rm | .sbbRmImm _ w mode rm | .subRmImm _ w mode rm | .cmpRmImm _ w mode rm =>
    match a with
    | .immRm disp imm => (rmOperand mode w rm disp).map fun rmop => (rmop, .imm imm)
    | .rmReg .. | .immReg .. | .accMem .. | .immAcc .. => none
  | .movRegImm w reg _ =>
    match a with
    | .immReg imm => some (.reg w reg, .imm imm)
    | .rmReg .. | .immRm .. | .accMem .. | .immAcc .. => none
  | .movAccAddr w _ =>
    match a with
    | .accMem addr => some (accumulator w, .direct addr)
    | .rmReg .. | .immRm .. | .immReg .. | .immAcc .. => none
  | .movAddrAcc w _ =>
    match a with
    | .accMem addr => some (.direct addr, accumulator w)
    | .rmReg .. | .immRm .. | .immReg .. | .immAcc .. => none
  | .addAccImm w _ | .sbbAccImm w _ | .subAccImm w _ | .cmpAccImm w _ =>
    match a with
    | .immAcc imm => some (accumulator w, .imm imm)
    | .rmReg .. | .immRm .. | .immReg .. | .accMem .. => none

end Sys2Proof

namespace Sys2Proof.Machine

/-! The trailing steps of the forms, on the tail of 43_resolver.md R88. -/

/-- RM_REG (41_mov.md R62, 42_arith.md R71 to R74). -/
def finishRmReg (d : Bool) (w : Width) (mode : Mode) (reg rm : U3) (tail : List Byte) : Option Finished :=
  let disp := dispValue tail
  match rmOperand mode w rm disp with
  | some rmop =>
    let ops := orderByDirection d (.reg w reg) rmop
    some ⟨.rmReg disp, ops.1, ops.2⟩
  | none => none

/-- IMM_RM (41_mov.md R63, 42_arith.md R75 to R78): the first `ndisp` bytes are the displacement, the rest the immediate. -/
def finishRmImm (s : Bool) (w : Width) (mode : Mode) (rm : U3) (ndisp : Nat) (tail : List Byte) : Option Finished :=
  let disp := dispValue (tail.take ndisp)
  match rmOperand mode w rm disp, immValue w s (tail.drop ndisp) with
  | some rmop, some imm => some ⟨.immRm disp imm, rmop, .imm imm⟩
  | _, _ => none

/-- IMM_REG (41_mov.md R64). -/
def finishRegImm (w : Width) (reg : U3) (tail : List Byte) : Option Finished :=
  match immValue w false tail with
  | some imm => some ⟨.immReg imm, .reg w reg, .imm imm⟩
  | none => none

/-- The address of ACC_MEM: two bytes, little-endian (41_mov.md R65, R66). -/
def addrValue : List Byte → Option U16
  | [lo, hi] => some (le16 lo hi)
  | _ => none

/-- ACC_MEM, memory to accumulator (41_mov.md R65). -/
def finishAccAddr (w : Width) (tail : List Byte) : Option Finished :=
  match addrValue tail with
  | some addr => some ⟨.accMem addr, accumulator w, .direct addr⟩
  | none => none

/-- ACC_MEM, accumulator to memory (41_mov.md R66). -/
def finishAddrAcc (w : Width) (tail : List Byte) : Option Finished :=
  match addrValue tail with
  | some addr => some ⟨.accMem addr, .direct addr, accumulator w⟩
  | none => none

/-- IMM_ACC (42_arith.md R79 to R82). -/
def finishAccImm (w : Width) (tail : List Byte) : Option Finished :=
  match immValue w false tail with
  | some imm => some ⟨.immAcc imm, accumulator w, .imm imm⟩
  | none => none

end Sys2Proof.Machine
end

