-- ==== Sys2Proof/Machine/Arith.lean ====
section
/-! DEFINITION. The meanings of the twelve arithmetic encodings (42_arith.md). DFE performs no arithmetic on operands and
writes no flag (00_scope.md R6): an instruction's effect is its header step and its trailing step. -/

namespace Sys2Proof.Machine

/-! Register/memory with register (form RM_REG). -/

/-- add r/m, reg and add reg, r/m (R71). -/
def execAddRmReg (d : Bool) (w : Width) (mode : Mode) (reg rm : U3) (s : State) : Host.Outcome State Fault Refusal :=
  let ndisp := dispCount mode rm
  transact ⟨.addRmReg d w mode reg rm, ndisp, 0, ndisp⟩ [] (finishRmReg d w mode reg rm) s

/-- sbb r/m, reg and sbb reg, r/m (R72). -/
def execSbbRmReg (d : Bool) (w : Width) (mode : Mode) (reg rm : U3) (s : State) : Host.Outcome State Fault Refusal :=
  let ndisp := dispCount mode rm
  transact ⟨.sbbRmReg d w mode reg rm, ndisp, 0, ndisp⟩ [] (finishRmReg d w mode reg rm) s

/-- sub r/m, reg and sub reg, r/m (R73). -/
def execSubRmReg (d : Bool) (w : Width) (mode : Mode) (reg rm : U3) (s : State) : Host.Outcome State Fault Refusal :=
  let ndisp := dispCount mode rm
  transact ⟨.subRmReg d w mode reg rm, ndisp, 0, ndisp⟩ [] (finishRmReg d w mode reg rm) s

/-- cmp r/m, reg and cmp reg, r/m (R74). -/
def execCmpRmReg (d : Bool) (w : Width) (mode : Mode) (reg rm : U3) (s : State) : Host.Outcome State Fault Refusal :=
  let ndisp := dispCount mode rm
  transact ⟨.cmpRmReg d w mode reg rm, ndisp, 0, ndisp⟩ [] (finishRmReg d w mode reg rm) s

/-! Immediate to register/memory (form IMM_RM). -/

/-- add r/m, imm (R75). -/
def execAddRmImm (sx : Bool) (w : Width) (mode : Mode) (rm : U3) (s : State) : Host.Outcome State Fault Refusal :=
  let ndisp := dispCount mode rm
  let nimm := immCountSigned sx w
  transact ⟨.addRmImm sx w mode rm, ndisp, nimm, ndisp + nimm⟩ [] (finishRmImm sx w mode rm ndisp) s

/-- sbb r/m, imm (R76). -/
def execSbbRmImm (sx : Bool) (w : Width) (mode : Mode) (rm : U3) (s : State) : Host.Outcome State Fault Refusal :=
  let ndisp := dispCount mode rm
  let nimm := immCountSigned sx w
  transact ⟨.sbbRmImm sx w mode rm, ndisp, nimm, ndisp + nimm⟩ [] (finishRmImm sx w mode rm ndisp) s

/-- sub r/m, imm (R77). -/
def execSubRmImm (sx : Bool) (w : Width) (mode : Mode) (rm : U3) (s : State) : Host.Outcome State Fault Refusal :=
  let ndisp := dispCount mode rm
  let nimm := immCountSigned sx w
  transact ⟨.subRmImm sx w mode rm, ndisp, nimm, ndisp + nimm⟩ [] (finishRmImm sx w mode rm ndisp) s

/-- cmp r/m, imm (R78). -/
def execCmpRmImm (sx : Bool) (w : Width) (mode : Mode) (rm : U3) (s : State) : Host.Outcome State Fault Refusal :=
  let ndisp := dispCount mode rm
  let nimm := immCountSigned sx w
  transact ⟨.cmpRmImm sx w mode rm, ndisp, nimm, ndisp + nimm⟩ [] (finishRmImm sx w mode rm ndisp) s

/-! Immediate to accumulator (form IMM_ACC). -/

/-- add acc, imm (R79). -/
def execAddAccImm (w : Width) (b1 : Byte) (s : State) : Host.Outcome State Fault Refusal :=
  let nimm := immCount w
  transact ⟨.addAccImm w b1, 0, nimm, nimm - 1⟩ [b1] (finishAccImm w) s

/-- sbb acc, imm (R80). -/
def execSbbAccImm (w : Width) (b1 : Byte) (s : State) : Host.Outcome State Fault Refusal :=
  let nimm := immCount w
  transact ⟨.sbbAccImm w b1, 0, nimm, nimm - 1⟩ [b1] (finishAccImm w) s

/-- sub acc, imm (R81). -/
def execSubAccImm (w : Width) (b1 : Byte) (s : State) : Host.Outcome State Fault Refusal :=
  let nimm := immCount w
  transact ⟨.subAccImm w b1, 0, nimm, nimm - 1⟩ [b1] (finishAccImm w) s

/-- cmp acc, imm (R82). -/
def execCmpAccImm (w : Width) (b1 : Byte) (s : State) : Host.Outcome State Fault Refusal :=
  let nimm := immCount w
  transact ⟨.cmpAccImm w b1, 0, nimm, nimm - 1⟩ [b1] (finishAccImm w) s

end Sys2Proof.Machine
end

