-- ==== Sys2Proof/Machine/Mov.lean ====
section
/-! DEFINITION. The meanings of the five mov encodings (41_mov.md). DFE moves no data (00_scope.md R6): an instruction's
effect is its header step, which latches the fields and the byte counts, and its trailing step, which emits the record. -/

namespace Sys2Proof.Machine

/-- mov r/m, reg and mov reg, r/m (R62). -/
def execMovRmReg (d : Bool) (w : Width) (mode : Mode) (reg rm : U3) (s : State) : Host.Outcome State Fault Refusal :=
  let ndisp := dispCount mode rm
  transact ⟨.movRmReg d w mode reg rm, ndisp, 0, ndisp⟩ [] (finishRmReg d w mode reg rm) s

/-- mov r/m, imm (R63); `reg` is recorded and not used, and the immediate is never sign-extended. -/
def execMovRmImm (w : Width) (mode : Mode) (reg rm : U3) (s : State) : Host.Outcome State Fault Refusal :=
  let ndisp := dispCount mode rm
  let nimm := immCount w
  transact ⟨.movRmImm w mode reg rm, ndisp, nimm, ndisp + nimm⟩ [] (finishRmImm false w mode rm ndisp) s

/-- mov reg, imm (R64). -/
def execMovRegImm (w : Width) (reg : U3) (b1 : Byte) (s : State) : Host.Outcome State Fault Refusal :=
  let nimm := immCount w
  transact ⟨.movRegImm w reg b1, 0, nimm, nimm - 1⟩ [b1] (finishRegImm w reg) s

/-- mov acc, [addr] (R65): the address is two bytes whatever `w` is. -/
def execMovAccAddr (w : Width) (b1 : Byte) (s : State) : Host.Outcome State Fault Refusal :=
  transact ⟨.movAccAddr w b1, 2, 0, 1⟩ [b1] (finishAccAddr w) s

/-- mov [addr], acc (R66). -/
def execMovAddrAcc (w : Width) (b1 : Byte) (s : State) : Host.Outcome State Fault Refusal :=
  transact ⟨.movAddrAcc w b1, 2, 0, 1⟩ [b1] (finishAddrAcc w) s

end Sys2Proof.Machine
end

