-- ==== Sys2Proof/Machine/Dispatch.lean ====
section
/-! DEFINITION. The dispatch from an instruction to its meaning, one arm per constructor of `Instr`. -/

namespace Sys2Proof.Machine

def exec (i : Instr) (s : State) : Host.Outcome State Fault Refusal :=
  match i with
  | .movRmReg d w mode reg rm => Sys2Proof.Machine.execMovRmReg d w mode reg rm s
  | .movRmImm w mode reg rm => Sys2Proof.Machine.execMovRmImm w mode reg rm s
  | .movRegImm w reg b1 => Sys2Proof.Machine.execMovRegImm w reg b1 s
  | .movAccAddr w b1 => Sys2Proof.Machine.execMovAccAddr w b1 s
  | .movAddrAcc w b1 => Sys2Proof.Machine.execMovAddrAcc w b1 s
  | .addRmReg d w mode reg rm => Sys2Proof.Machine.execAddRmReg d w mode reg rm s
  | .addRmImm sx w mode rm => Sys2Proof.Machine.execAddRmImm sx w mode rm s
  | .addAccImm w b1 => Sys2Proof.Machine.execAddAccImm w b1 s
  | .sbbRmReg d w mode reg rm => Sys2Proof.Machine.execSbbRmReg d w mode reg rm s
  | .sbbRmImm sx w mode rm => Sys2Proof.Machine.execSbbRmImm sx w mode rm s
  | .sbbAccImm w b1 => Sys2Proof.Machine.execSbbAccImm w b1 s
  | .subRmReg d w mode reg rm => Sys2Proof.Machine.execSubRmReg d w mode reg rm s
  | .subRmImm sx w mode rm => Sys2Proof.Machine.execSubRmImm sx w mode rm s
  | .subAccImm w b1 => Sys2Proof.Machine.execSubAccImm w b1 s
  | .cmpRmReg d w mode reg rm => Sys2Proof.Machine.execCmpRmReg d w mode reg rm s
  | .cmpRmImm sx w mode rm => Sys2Proof.Machine.execCmpRmImm sx w mode rm s
  | .cmpAccImm w b1 => Sys2Proof.Machine.execCmpAccImm w b1 s

end Sys2Proof.Machine
end

