-- ==== Sys2Proof/Machine/Sequencer.lean ====
section
/-! DEFINITION. The three transactions of 45_sequencer.md R107 with their pre-conditions (R110 to R113, R117), and the
canonical caller's choice of the next one (R114). -/

namespace Sys2Proof.Machine

/-- What a list of bytes handed over at `pos` is, when the caller owes `n` of them: acceptable only when it is what the
stream holds there, shorter than `n` only at the end of the stream (45_sequencer.md R111, R113, R117). -/
def checkBytes (s : State) (n : Nat) (bytes : List Byte) : Option Refusal :=
  let held := s.stream.window s.pos n
  if bytes = held then none
  else if bytes.length < held.length then some .bytesWithheld
  else some .streamChanged

/-- `header(chunk)` (R110, R111): decode the chunk and run the header step of the instruction it selects, or raise. -/
def header (chunk : List Byte) (s : State) : Host.Outcome State Fault Refusal :=
  if s.phase ≠ .idle then .refused .headerOutOfPhase
  else if chunk.length > Config.headerChunk then .refused .headerTooLong
  else
    match checkBytes s Config.headerChunk chunk with
    | some r => .refused r
    | none =>
      match decode chunk with
      | .endOfStream => .next s.endOfStream
      | .error k => .next (s.raiseHeader k)
      | .instr i _ => exec i s

/-- `trailing(bytes)` (R112, R113): run the trailing step of the instruction whose header step wrote `ir`. -/
def trailing (bytes : List Byte) (s : State) : Host.Outcome State Fault Refusal :=
  if s.phase ≠ .trailing then .refused .trailingOutOfPhase
  else
    match s.latch with
    | none => .refused .notOpenInstruction
    | some l =>
      if bytes.length > l.need then .refused .trailingTooLong
      else
        match checkBytes s l.need bytes with
        | some r => .refused r
        | none => exec l.ir s

/-- One transaction. `reset()` is accepted in every phase (R117). -/
def serve (c : Call) (s : State) : Host.Outcome State Fault Refusal :=
  match c with
  | .reset => .next s.resetDfe
  | .newRun bytes => .next (s.newRun bytes)
  | .header chunk => header chunk s
  | .trailing bytes => trailing bytes s

/-- The canonical caller's next transaction (R114): in IDLE the next chunk of the stream, in TRAILING the bytes the open
instruction needs, and after an error nothing. After END_OF_STREAM the caller of R114 returns and the spec says nothing of
what follows; DESIGN CHOICE (log 15): this one asks for the empty chunk again at every later step, which changes no state of
DFE (R111). -/
def canonicalCall (s : State) : Option Call :=
  match s.phase with
  | .idle => some (.header (s.stream.window s.pos Config.headerChunk))
  | .trailing => some (.trailing (s.stream.window s.pos ((s.latch.map Latch.need).getD 0)))
  | .halted => none

/-- One step of the two agents: the transaction the caller has pending, else the canonical one; with none left to ask for,
a halted DFE stays halted (93_implementation_defined.md U9). -/
def stepOnce (s : State) : Host.Outcome State Fault Refusal :=
  match s.calls with
  | c :: cs => serve c { s with calls := cs }
  | [] =>
    match canonicalCall s with
    | some c => serve c s
    | none => .fault .halted

end Sys2Proof.Machine
end

