-- ==== Sys2Proof/Machine/Step.lean ====
section
/-! DEFINITION. One step of the machine is one transaction (70_reset_and_hazards.md R148), and where a step fetches from. -/

namespace Sys2Proof.Machine

/-- One transaction of DFE with its caller. -/
def step (s : State) : Host.Outcome State Fault Refusal := stepOnce s

/-- `s` with the instruction of the table word `w` in the stream at `pos`, DFE in IDLE and no transaction pending, so that the
next step is the header transaction of that instruction. -/
def State.withFetchWord (s : State) (nbits w : Nat) : State :=
  { s with
    stream := s.stream.writeBytes s.pos (tableBytes nbits w)
    phase := .idle
    calls := [] }

end Sys2Proof.Machine
end

