-- ==== Sys2Proof/Machine/Codes.lean ====
section
/-! DEFINITION. The numeric codes of 10_state.md R21. The machine uses the inductive types; the codes are for observers. -/

namespace Sys2Proof.Machine

def phaseCode : Phase → Nat
  | .idle => 0
  | .trailing => 1
  | .halted => 2

def familyCode : Family → Nat
  | .movImmReg => 1
  | .movImmRm => 2
  | .movRmReg => 3
  | .movAccMem => 4
  | .arith => 5

def formCode : Form → Nat
  | .rmReg => 0
  | .immRm => 1
  | .immReg => 2
  | .accMem => 3
  | .immAcc => 4

def opCode : Op → Nat
  | .arith .add => 0
  | .arith .sbb => 3
  | .arith .sub => 5
  | .arith .cmp => 7
  | .mov => 8

def widthCode : Width → Nat
  | .byte => 0
  | .word => 1

/-- The two encoded bits themselves. -/
def modeCode (m : Mode) : Nat := m.bits.toNat

def errorCode : ErrorKind → Nat
  | .unrecognizedOpcode => 1
  | .unknownArithmeticOp => 2
  | .invalidMode => 3
  | .truncatedStream => 4

/-- `err.kind`, NONE being 0. -/
def errKindCode (s : State) : Nat :=
  match s.err with
  | none => 0
  | some e => errorCode e.kind

end Sys2Proof.Machine
end

