-- ==== Sys2Proof/Machine/Renderer.lean ====
section
/-! DEFINITION. The renderer, a pure observation on records (44_renderer.md R99 to R106). It has no failing arm: every mode is
one of four (R106). -/

namespace Sys2Proof.Machine

/-- The lower-case mnemonics (R100). -/
def mnemonicText : Op → String
  | .mov => "mov"
  | .arith .add => "add"
  | .arith .sbb => "sbb"
  | .arith .sub => "sub"
  | .arith .cmp => "cmp"

/-- The text of a register name (R101, 43_resolver.md R91, R92). -/
def regText : RegName → String
  | .al => "al" | .cl => "cl" | .dl => "dl" | .bl => "bl"
  | .ah => "ah" | .ch => "ch" | .dh => "dh" | .bh => "bh"
  | .ax => "ax" | .cx => "cx" | .dx => "dx" | .bx => "bx"
  | .sp => "sp" | .bp => "bp" | .si => "si" | .di => "di"

/-- The text column of the effective-address table: base, index, or both joined by a plus (43_resolver.md R94). -/
def eaText (rm : U3) : String :=
  match eaBase[rm.toFin], eaIndex[rm.toFin] with
  | some base, some index => regText base ++ "+" ++ regText index
  | some base, none => regText base
  | none, some index => regText index
  | none, none => ""

/-- The shortest decimal numeral, with a minus sign when negative (R102). -/
def decimal (n : Int) : String := toString n

/-- The text of an operand (R101 to R104): a displacement is read signed, an address and an immediate unsigned. -/
def operandText : Operand → String
  | .reg w idx => regText (regName w idx)
  | .mem rm none => "[" ++ eaText rm ++ "]"
  | .mem rm (some v) => "[" ++ eaText rm ++ " + " ++ decimal v.toInt ++ "]"
  | .direct a => "[" ++ decimal a.toNat ++ "]"
  | .imm (.byte v) => decimal v.toNat
  | .imm (.word v) => decimal v.toNat

/-- The size keyword before a memory destination in the form IMM_RM (R105). -/
def sizeText (r : Record) : String :=
  match r.instr.form, r.dst with
  | .immRm, .mem .. | .immRm, .direct _ =>
    match r.instr.w with
    | .byte => "byte "
    | .word => "word "
  | _, _ => ""

/-- `render` (R99). -/
def render (r : Record) : String :=
  mnemonicText r.instr.op ++ " " ++ sizeText r ++ operandText r.dst ++ ", " ++ operandText r.src

/-- The text output of a run: one line a record, in order (45_sequencer.md R116). -/
def renderAll (rs : List Record) : List String := rs.map render

end Sys2Proof.Machine
end

