-- ==== Sys2Proof/Machine/Stream.lean ====
section
/-! DEFINITION. Whole-stream decode (45_sequencer.md R114, R115): the run of DFE under the canonical caller, the observation
the spec states claims through. -/

namespace Sys2Proof.Machine

/-- The run is over: the caller was told END_OF_STREAM, or DFE has halted (R115). -/
def State.ended (s : State) : Bool :=
  decide (s.result = some .endOfStream) || decide (s.phase = .halted)

/-- Steps until the run has ended, at most `fuel`; `none` if it has not, or if a step stops. -/
def runToEnd : Nat → State → Option State
  | 0, _ => none
  | fuel + 1, s =>
    match step s with
    | .next t => if t.ended then some t else runToEnd fuel t
    | .fault _ | .refused _ => none

/-- The state at the end of the run on `bytes` from reset. A run takes two transactions an instruction, each at least two
bytes long, and one more, so `L + 1` steps are enough. -/
def runStream (bytes : List Byte) : Option State :=
  runToEnd (bytes.length + 1) (State.reset.newRun bytes)

/-- `decode_stream` (R114): the records, and the error if the run halted. -/
def decodeStream (bytes : List Byte) : Option (List Record × Option ErrorReg) :=
  (runStream bytes).map fun t => (t.out, t.err)

end Sys2Proof.Machine
end

