-- ==== Sys2Proof/Safety.lean ====
section
/-! DEFINITION. What a consistent state and a safe run are, in the terms the claims use. -/

namespace Sys2Proof.Machine

/-- A record DFE can emit: its length is the instruction's, its data has the instruction's shape, and its operands are
those of its form (10_state.md R18, 43_resolver.md R96). -/
def Record.wf (r : Record) : Prop :=
  r.len = 2 + r.instr.need ∧ r.instr.fits r.data = true ∧ r.instr.operands r.data = some (r.dst, r.src)

/-- Consecutive records cover the offsets from `a` to `b` without gap or overlap. -/
def tiles (a b : Nat) : List Record → Prop
  | [] => a = b
  | r :: rs => r.ioff = a ∧ tiles (a + r.len) b rs

/-- The invariant of the machine: the stream is a stream, `pos` lies in it, every record handed over is one DFE can emit,
and each phase has the registers 10_state.md R14 to R19 give it. -/
structure State.Inv (s : State) : Prop where
  stream_dense : s.stream.dense
  pos_in_stream : s.pos ≤ s.stream.length
  records_wf : ∀ r ∈ s.out, r.wf
  idle : s.phase = .idle → s.latch = none ∧ s.err = none
  trailing : s.phase = .trailing → s.err = none ∧ s.pos = s.ioff + 2 ∧ ∃ i : Instr, s.latch = some i.latched
  halted : s.phase = .halted → ∃ k, s.err = some ⟨k, s.ioff⟩ ∧ k ≠ .invalidMode ∧
    (s.pos = s.ioff ∨ (k = .truncatedStream ∧ s.pos = s.ioff + 2))

/-- A clean end of a run: everything is consumed and no error is recorded (45_sequencer.md R115 a). -/
def State.cleanEnd (s : State) : Prop :=
  s.phase = .idle ∧ s.pos = s.stream.length ∧ s.err = none

/-- A halted end of a run (45_sequencer.md R115 b). -/
def State.haltedEnd (s : State) : Prop :=
  s.phase = .halted ∧ ∃ e, s.err = some e

end Sys2Proof.Machine
end

