-- ==== Sys2Proof/Certificates/Slice0/Obligations.lean ====
section
/-! DEFINITION. The statements about DFE, for the provers. Where a statement's next state shows `latch := none` after a
completed instruction, `result`, `out` or `calls`, those are the model's own choices (log 4, log 3, log 2). -/

open Sys2Proof Sys2Proof.Machine

/-! Classifier and encoding. -/

/-- The fourteen rows of the classifier table in priority order: mask, match, family, form, operation. The match values of
most rows are the spec's general knowledge (40_classifier.md R53). -/
def Obligations.FourteenClassifierRows : Prop :=
  classifierTable.map (fun r => (r.mask, r.bits, r.layout.family, r.layout.form, r.layout.op)) = [
    (0xF0, 0xB0, .movImmReg, .immReg, some .mov),
    (0xFE, 0xC6, .movImmRm, .immRm, some .mov),
    (0xFC, 0x88, .movRmReg, .rmReg, some .mov),
    (0xFE, 0xA0, .movAccMem, .accMem, some .mov),
    (0xFE, 0xA2, .movAccMem, .accMem, some .mov),
    (0xFC, 0x00, .arith, .rmReg, some (.arith .add)),
    (0xFC, 0x18, .arith, .rmReg, some (.arith .sbb)),
    (0xFC, 0x28, .arith, .rmReg, some (.arith .sub)),
    (0xFC, 0x38, .arith, .rmReg, some (.arith .cmp)),
    (0xFC, 0x80, .arith, .immRm, none),
    (0xFE, 0x04, .arith, .immAcc, some (.arith .add)),
    (0xFE, 0x1C, .arith, .immAcc, some (.arith .sbb)),
    (0xFE, 0x2C, .arith, .immAcc, some (.arith .sub)),
    (0xFE, 0x3C, .arith, .immAcc, some (.arith .cmp))]

/-- The accepted first bytes are the nine ranges of 40_classifier.md R56, and every other byte is rejected (R57). -/
def Obligations.ClassifyAcceptsNineRanges : Prop :=
  ∀ b0 : Byte, (classify b0).isSome = true ↔
    (b0.toNat ≤ 0x05 ∨ (0x18 ≤ b0.toNat ∧ b0.toNat ≤ 0x1D) ∨ (0x28 ≤ b0.toNat ∧ b0.toNat ≤ 0x2D) ∨
      (0x38 ≤ b0.toNat ∧ b0.toNat ≤ 0x3D) ∨ (0x80 ≤ b0.toNat ∧ b0.toNat ≤ 0x83) ∨
      (0x88 ≤ b0.toNat ∧ b0.toNat ≤ 0x8B) ∨ (0xA0 ≤ b0.toNat ∧ b0.toNat ≤ 0xA3) ∨
      (0xB0 ≤ b0.toNat ∧ b0.toNat ≤ 0xBF) ∨ (0xC6 ≤ b0.toNat ∧ b0.toNat ≤ 0xC7))

/-- `classify` answers the same row under every ordering of the table (40_classifier.md R55). -/
def Obligations.ClassifyIndependentOfRowOrder : Prop :=
  ∀ (b0 : Byte) (rows : List ClassRow), rows.Perm classifierTable → rows.find? (ClassRow.accepts b0) = classify b0

/-- Any header whose first byte no row matches is `UnrecognizedOpcode`, whatever follows it, and no other header is
(60_exceptions.md R120). -/
def Obligations.UnrecognizedOpcodeIffUnclassified : Prop :=
  ∀ (b0 : Byte) (rest : List Byte), decode (b0 :: rest) = .error .unrecognizedOpcode ↔ classify b0 = none

/-- `UnknownArithmeticOp` exactly for byte 0 in 80..83 with ModRM reg 1, 2, 4 or 6, and never from one byte
(42_arith.md R70, 60_exceptions.md R121). -/
def Obligations.UnknownArithmeticOpExactly : Prop :=
  (∀ (b0 b1 : Byte) (rest : List Byte), decode (b0 :: b1 :: rest) = .error .unknownArithmeticOp ↔
    (0x80 ≤ b0.toNat ∧ b0.toNat ≤ 0x83 ∧
      (b1.extractLsb' 3 3 = 1 ∨ b1.extractLsb' 3 3 = 2 ∨ b1.extractLsb' 3 3 = 4 ∨ b1.extractLsb' 3 3 = 6))) ∧
  ∀ b0 : Byte, decode [b0] ≠ .error .unknownArithmeticOp

/-- In arithmetic IMM_RM byte 0 has 000 in bits 5:3 for every operation, the operation is that of the ModRM reg field, and
the reg field names no register: the operands are the rm operand and an immediate (42_arith.md R69). -/
def Obligations.ArithmeticImmediateOpFromReg : Prop :=
  ∀ (b0 b1 : Byte) (rest : List Byte) (i : Instr), b0 &&& 0xFC = 0x80 → decode (b0 :: b1 :: rest) = .instr i rest →
    b0.extractLsb' 3 3 = 0 ∧
    (∃ op, sel (b1.extractLsb' 3 3) = some op ∧ i.op = .arith op) ∧
    ∀ a dst src, i.operands a = some (dst, src) →
      (∃ mode disp, i.mode = some mode ∧ rmOperand mode i.w (b1.extractLsb' 0 3) disp = some dst) ∧ ∃ v, src = .imm v

/-- In the arithmetic forms RM_REG and IMM_ACC the selector in byte 0 bits 5:3 is recognized and is the row's operation
(42_arith.md R68). -/
def Obligations.OpcodeSelectorAgreesWithRow : Prop :=
  ∀ (b0 : Byte) (row : ClassRow) (op : ArithOp), classify b0 = some row →
    (row.layout = .arithRmReg op ∨ row.layout = .arithImmAcc op) → sel (selOfOpcode b0) = some op

/-- `d` is bit 1 of byte 0 in RM_REG and says which operand is the register; no other form has it: there the immediate is
the source, or bit 1 is `t` or `s` (30_encoding.md R39). -/
def Obligations.DirectionBitPlacesRegister : Prop :=
  ∀ (b0 b1 : Byte) (rest : List Byte) (i : Instr), decode (b0 :: b1 :: rest) = .instr i rest →
    (i.form = .rmReg → i.d = some (b0.getLsbD 1) ∧
      ∀ a dst src, i.operands a = some (dst, src) →
        ∃ r, i.reg = some r ∧ (if b0.getLsbD 1 then dst else src) = .reg i.w r) ∧
    (i.form ≠ .rmReg → i.d = none) ∧
    ((i.form = .immRm ∨ i.form = .immReg ∨ i.form = .immAcc) →
      ∀ a dst src, i.operands a = some (dst, src) → ∃ v, src = .imm v) ∧
    (i.form = .accMem → i.toMem = some (b0.getLsbD 1)) ∧
    (i.form = .immRm → i.family = .arith → i.s = some (b0.getLsbD 1))

/-- IMM_REG: `reg` is bits 2:0 of byte 0 and `w` is bit 3; 0xB1 is `cl` (30_encoding.md R42). -/
def Obligations.ImmRegFieldsOfBytes : Prop :=
  (∀ (b0 b1 : Byte) (rest : List Byte), b0 &&& 0xF0 = 0xB0 →
    decode (b0 :: b1 :: rest) =
      .instr (.movRegImm (if b0.getLsbD 3 then .word else .byte) (b0.extractLsb' 0 3) b1) rest) ∧
  ∀ (b1 : Byte) (rest : List Byte), decode (0xB1 :: b1 :: rest) = .instr (.movRegImm .byte 1 b1) rest ∧
    regName .byte 1 = .cl

/-- RM_REG: the fields of the five encodings, cut from the header chunk (30_encoding.md R38, R39, R41, R44). -/
def Obligations.RmRegFieldsOfBytes : Prop :=
  ∀ (b0 b1 : Byte) (rest : List Byte) (mode : Mode), mode.bits = b1.extractLsb' 6 2 →
    let d := b0.getLsbD 1
    let w := if b0.getLsbD 0 then Width.word else Width.byte
    let reg := b1.extractLsb' 3 3
    let rm := b1.extractLsb' 0 3
    (b0 &&& 0xFC = 0x88 → decode (b0 :: b1 :: rest) = .instr (.movRmReg d w mode reg rm) rest) ∧
    (b0 &&& 0xFC = 0x00 → decode (b0 :: b1 :: rest) = .instr (.addRmReg d w mode reg rm) rest) ∧
    (b0 &&& 0xFC = 0x18 → decode (b0 :: b1 :: rest) = .instr (.sbbRmReg d w mode reg rm) rest) ∧
    (b0 &&& 0xFC = 0x28 → decode (b0 :: b1 :: rest) = .instr (.subRmReg d w mode reg rm) rest) ∧
    (b0 &&& 0xFC = 0x38 → decode (b0 :: b1 :: rest) = .instr (.cmpRmReg d w mode reg rm) rest)

/-- IMM_RM: the fields of the five encodings; for mov every reg value is accepted and recorded, and 0x82 is accepted
(30_encoding.md R40, R41, R44, R48). -/
def Obligations.RmImmFieldsOfBytes : Prop :=
  ∀ (b0 b1 : Byte) (rest : List Byte) (mode : Mode), mode.bits = b1.extractLsb' 6 2 →
    let s := b0.getLsbD 1
    let w := if b0.getLsbD 0 then Width.word else Width.byte
    let reg := b1.extractLsb' 3 3
    let rm := b1.extractLsb' 0 3
    (b0 &&& 0xFE = 0xC6 → decode (b0 :: b1 :: rest) = .instr (.movRmImm w mode reg rm) rest) ∧
    (b0 &&& 0xFC = 0x80 → reg = 0 → decode (b0 :: b1 :: rest) = .instr (.addRmImm s w mode rm) rest) ∧
    (b0 &&& 0xFC = 0x80 → reg = 3 → decode (b0 :: b1 :: rest) = .instr (.sbbRmImm s w mode rm) rest) ∧
    (b0 &&& 0xFC = 0x80 → reg = 5 → decode (b0 :: b1 :: rest) = .instr (.subRmImm s w mode rm) rest) ∧
    (b0 &&& 0xFC = 0x80 → reg = 7 → decode (b0 :: b1 :: rest) = .instr (.cmpRmImm s w mode rm) rest)

/-- ACC_MEM and IMM_ACC: the fields of the six encodings; the second chunk byte is data (30_encoding.md R43, R44,
43_resolver.md R86). -/
def Obligations.AccumulatorFieldsOfBytes : Prop :=
  ∀ (b0 b1 : Byte) (rest : List Byte),
    let w := if b0.getLsbD 0 then Width.word else Width.byte
    (b0 &&& 0xFE = 0xA0 → decode (b0 :: b1 :: rest) = .instr (.movAccAddr w b1) rest) ∧
    (b0 &&& 0xFE = 0xA2 → decode (b0 :: b1 :: rest) = .instr (.movAddrAcc w b1) rest) ∧
    (b0 &&& 0xFE = 0x04 → decode (b0 :: b1 :: rest) = .instr (.addAccImm w b1) rest) ∧
    (b0 &&& 0xFE = 0x1C → decode (b0 :: b1 :: rest) = .instr (.sbbAccImm w b1) rest) ∧
    (b0 &&& 0xFE = 0x2C → decode (b0 :: b1 :: rest) = .instr (.subAccImm w b1) rest) ∧
    (b0 &&& 0xFE = 0x3C → decode (b0 :: b1 :: rest) = .instr (.cmpAccImm w b1) rest)

/-- Encoding and decoding the header agree in both directions: no bit of a header chunk is dropped. -/
def Obligations.HeaderEncodeDecodeRoundTrip : Prop :=
  (∀ (i : Instr) (rest : List Byte), i.wellFormed Config.strictReserved = true →
    decode (encode i ++ rest) = .instr i rest) ∧
  ∀ (bytes rest : List Byte) (i : Instr), decode bytes = .instr i rest → bytes = encode i ++ rest

/-- One word of each form written out from the encoding table decodes to the instruction it stands for. -/
def Obligations.WrittenOutWordsDecode : Prop :=
  decode [0b10001001, 0b11011000] = .instr (.movRmReg false .word .register 3 0) [] ∧
  decode [0b11000111, 0b10000101] = .instr (.movRmImm .word .memWordDisp 0 5) [] ∧
  decode [0b10110001, 0b00001100] = .instr (.movRegImm .byte 1 12) [] ∧
  decode [0b10100011, 0b00010000] = .instr (.movAddrAcc .word 16) [] ∧
  decode [0b00011011, 0b00001001] = .instr (.sbbRmReg true .word .memNoDisp 1 1) [] ∧
  decode [0b10000011, 0b00111110] = .instr (.cmpRmImm true .word .memNoDisp 6) [] ∧
  decode [0b00101101, 0b11111111] = .instr (.subAccImm .word 255) []

/-- A field exists only in the forms that have it, the forms without a ModRM byte carry no displacement, and a displacement
of zero width is absent (70_reset_and_hazards.md R146). -/
def Obligations.FieldsExistOnlyInTheirForm : Prop :=
  (∀ i : Instr,
    (i.d.isSome = true ↔ i.form = .rmReg) ∧
    (i.s.isSome = true ↔ i.form = .immRm) ∧
    (i.mode.isSome = true ↔ (i.form = .rmReg ∨ i.form = .immRm)) ∧
    (i.rm.isSome = true ↔ (i.form = .rmReg ∨ i.form = .immRm)) ∧
    (i.reg.isSome = true ↔ (i.form = .rmReg ∨ i.form = .immRm ∨ i.form = .immReg)) ∧
    (i.toMem.isSome = true ↔ i.form = .accMem) ∧
    (i.b1.isSome = true ↔ (i.form = .immReg ∨ i.form = .accMem ∨ i.form = .immAcc)) ∧
    ∀ a, i.fits a = true → (i.form = .immReg ∨ i.form = .accMem ∨ i.form = .immAcc) →
      ∀ disp imm, a ≠ .rmReg disp ∧ a ≠ .immRm disp imm) ∧
  dispValue [] = none

/-! Sizes, values and operands. -/

/-- The displacement count as a function of the two mode bits and rm, and that it is the count of every instruction with a
ModRM byte, whatever its other fields (43_resolver.md R83). -/
def Obligations.DisplacementCountTable : Prop :=
  (∀ (m : U2) (rm : U3), dispCount (Mode.ofBits m) rm =
    if m = 0b00 then (if rm = 0b110 then 2 else 0) else if m = 0b01 then 1 else if m = 0b10 then 2 else 0) ∧
  ∀ (i : Instr) (mode : Mode) (rm : U3), i.mode = some mode → i.rm = some rm → i.ndisp = dispCount mode rm

/-- Sizing and operand agree on the direct address: the rm operand is `DIRECT` exactly when the count was 2 under mode 00,
which is exactly rm 110, and its address is the displacement (43_resolver.md R84, 70_reset_and_hazards.md R143). -/
def Obligations.DirectAddressExceptionAgrees : Prop :=
  ∀ (mode : Mode) (w : Width) (rm : U3) (disp : Option U16) (op : Operand), rmOperand mode w rm disp = some op →
    ((∃ a, op = .direct a) ↔ (mode = .memNoDisp ∧ dispCount mode rm = 2)) ∧
    ((mode = .memNoDisp ∧ dispCount mode rm = 2) ↔ (mode = .memNoDisp ∧ rm = 0b110)) ∧
    ∀ a, op = .direct a → disp = some a

/-- A displacement of one byte is the signed byte, one of two bytes is little-endian, none is absent (43_resolver.md R89;
the sign extension is the spec's decision D13). -/
def Obligations.DisplacementValueSigned : Prop :=
  dispValue [] = none ∧
  (∀ b : Byte, ∃ v, dispValue [b] = some v ∧ v.toInt = b.toInt ∧
    v.toNat = if b.toNat < 128 then b.toNat else b.toNat + 0xFF00) ∧
  ∀ lo hi : Byte, ∃ v, dispValue [lo, hi] = some v ∧ v.toNat = hi.toNat * 256 + lo.toNat

/-- The three cases of the immediate (43_resolver.md R90; the sign-extended case is the spec's general knowledge). -/
def Obligations.ImmediateValueByWidth : Prop :=
  (∀ (s : Bool) (b : Byte), immValue .byte s [b] = some (.byte b)) ∧
  (∀ lo hi : Byte, ∃ v, immValue .word false [lo, hi] = some (.word v) ∧ v.toNat = hi.toNat * 256 + lo.toNat) ∧
  ∀ b : Byte, ∃ v, immValue .word true [b] = some (.word v) ∧ v.toInt = b.toInt

/-- The sixteen register names by width and index, and no two selectors share a name (43_resolver.md R91 to R93). -/
def Obligations.RegisterNamesByWidth : Prop :=
  ((List.range 8).map fun k => regText (regName .byte (BitVec.ofNat 3 k))) =
    ["al", "cl", "dl", "bl", "ah", "ch", "dh", "bh"] ∧
  ((List.range 8).map fun k => regText (regName .word (BitVec.ofNat 3 k))) =
    ["ax", "cx", "dx", "bx", "sp", "bp", "si", "di"] ∧
  ∀ (w w' : Width) (idx idx' : U3), regText (regName w idx) = regText (regName w' idx') → w = w' ∧ idx = idx'

/-- The effective-address expressions by rm, as text and as base and index registers (43_resolver.md R94; the spelling is
the spec's decision D26, which register is base and which index its general knowledge). -/
def Obligations.EffectiveAddressTable : Prop :=
  ((List.range 8).map fun k => eaText (BitVec.ofNat 3 k)) =
    ["bx+si", "bx+di", "bp+si", "bp+di", "si", "di", "bp", "bx"] ∧
  eaBase.toList = [some .bx, some .bx, some .bp, some .bp, none, none, some .bp, some .bx] ∧
  eaIndex.toList = [some .si, some .di, some .si, some .di, some .si, some .di, none, none]

/-- The rm operand in each mode, on the displacement bytes the mode has (43_resolver.md R95). -/
def Obligations.RmOperandByMode : Prop :=
  ∀ (mode : Mode) (w : Width) (rm : U3) (bytes : List Byte), bytes.length = dispCount mode rm →
    (mode = .register → dispValue bytes = none ∧ rmOperand mode w rm (dispValue bytes) = some (.reg w rm)) ∧
    (mode = .memNoDisp → rm = 0b110 →
      ∃ a, dispValue bytes = some a ∧ rmOperand mode w rm (dispValue bytes) = some (.direct a)) ∧
    (mode = .memNoDisp → rm ≠ 0b110 → rmOperand mode w rm (dispValue bytes) = some (.mem rm none)) ∧
    (mode = .memByteDisp ∨ mode = .memWordDisp →
      ∃ v, dispValue bytes = some v ∧ rmOperand mode w rm (dispValue bytes) = some (.mem rm (some v)))

/-- The counts and lengths of every form, and the one way to four trailing bytes (43_resolver.md R85 to R87). -/
def Obligations.TrailingCountsByForm : Prop :=
  ∀ i : Instr,
    i.ndisp ≤ 2 ∧ i.nimm ≤ 2 ∧ i.need ≤ 4 ∧
    (i.form = .rmReg → i.nimm = 0 ∧ i.need = i.ndisp) ∧
    (i.form = .immRm → i.need = i.ndisp + i.nimm ∧
      (i.nimm = 2 ↔ (i.w = .word ∧ i.s = some false)) ∧ (i.nimm = 1 ↔ ¬ (i.w = .word ∧ i.s = some false))) ∧
    (i.form = .immReg ∨ i.form = .immAcc → i.ndisp = 0 ∧
      (i.w = .byte → i.nimm = 1 ∧ i.need = 0) ∧ (i.w = .word → i.nimm = 2 ∧ i.need = 1)) ∧
    (i.form = .accMem → i.ndisp = 2 ∧ i.nimm = 0 ∧ i.need = 1) ∧
    (i.need = 4 ↔ (i.form = .immRm ∧ i.ndisp = 2 ∧ i.nimm = 2))

/-! What each instruction does: its header step in IDLE and its trailing step in TRAILING. -/

/-- RM_REG (41_mov.md R62, 42_arith.md R71 to R74): in IDLE the header is latched with `need = ndisp`; in TRAILING, with the
displacement bytes there, the record is emitted with the register operand placed by `d`. `latch := none`, `out` and
`result` are the model's (log 4, log 3). -/
def Obligations.RmRegInstructionsComplete : Prop :=
  ∀ (d : Bool) (w : Width) (mode : Mode) (reg rm : U3) (i : Instr),
    (i = .movRmReg d w mode reg rm ∨ i = .addRmReg d w mode reg rm ∨ i = .sbbRmReg d w mode reg rm ∨
      i = .subRmReg d w mode reg rm ∨ i = .cmpRmReg d w mode reg rm) →
    ∀ (s : State) (n : Nat) (bytes : List Byte), n = dispCount mode rm →
      (s.phase = .idle →
        exec i s = .next { s with
          ioff := s.pos, latch := some ⟨i, n, 0, n⟩, pos := s.pos + 2, phase := .trailing,
          result := some (.header i.family n) }) ∧
      (s.phase = .trailing → s.latch = some ⟨i, n, 0, n⟩ → s.stream.window s.pos n = bytes → bytes.length = n →
        ∃ rmop r, rmOperand mode w rm (dispValue bytes) = some rmop ∧
          r = Record.mk i s.ioff (2 + n) (.rmReg (dispValue bytes))
            (if d then .reg w reg else rmop) (if d then rmop else .reg w reg) ∧
          exec i s = .next { s with
            pos := s.pos + n, phase := .idle, latch := none, out := s.out ++ [r], result := some (.record r) })

/-- IMM_RM (41_mov.md R63, 42_arith.md R75 to R78): the destination is the rm operand, the source the immediate; mov and
`s = 0` word immediates take two bytes, every other one, and with `s` set a word immediate is sign-extended (what `s` means
is the spec's general knowledge). `latch := none`, `out` and `result` are the model's (log 4, log 3). -/
def Obligations.RmImmInstructionsComplete : Prop :=
  ∀ (sx : Bool) (w : Width) (mode : Mode) (reg rm : U3) (i : Instr),
    ((i = .movRmImm w mode reg rm ∧ sx = false) ∨ i = .addRmImm sx w mode rm ∨ i = .sbbRmImm sx w mode rm ∨
      i = .subRmImm sx w mode rm ∨ i = .cmpRmImm sx w mode rm) →
    ∀ (s : State) (nd ni : Nat) (dbytes ibytes : List Byte), nd = dispCount mode rm →
      ni = (if sx = false ∧ w = .word then 2 else 1) →
      (s.phase = .idle →
        exec i s = .next { s with
          ioff := s.pos, latch := some ⟨i, nd, ni, nd + ni⟩, pos := s.pos + 2, phase := .trailing,
          result := some (.header i.family (nd + ni)) }) ∧
      (s.phase = .trailing → s.latch = some ⟨i, nd, ni, nd + ni⟩ →
        s.stream.window s.pos (nd + ni) = dbytes ++ ibytes → dbytes.length = nd → ibytes.length = ni →
        ∃ rmop imm r, rmOperand mode w rm (dispValue dbytes) = some rmop ∧ immValue w sx ibytes = some imm ∧
          r = Record.mk i s.ioff (2 + (nd + ni)) (.immRm (dispValue dbytes) imm) rmop (.imm imm) ∧
          exec i s = .next { s with
            pos := s.pos + (nd + ni), phase := .idle, latch := none, out := s.out ++ [r],
            result := some (.record r) })

/-- IMM_REG (41_mov.md R64): width from bit 3, register from bits 2:0, the second chunk byte is the low byte of the
immediate, which is never sign-extended; the byte form's trailing transaction cannot fail, the word form's fails only as
`TruncatedStream`. The records handed over are the field `out` (log 3). -/
def Obligations.ImmRegInstructionCompletes : Prop :=
  ∀ (b0 b1 : Byte) (rest : List Byte) (w : Width) (reg : U3) (i : Instr), b0 &&& 0xF0 = 0xB0 →
    w = (if b0.getLsbD 3 then .word else .byte) → reg = b0.extractLsb' 0 3 → i = .movRegImm w reg b1 →
    decode (b0 :: b1 :: rest) = .instr i rest ∧ i.family = .movImmReg ∧ i.form = .immReg ∧ i.op = .mov ∧
    i.mode = none ∧ i.rm = none ∧ i.d = none ∧
    ∀ s : State,
      (s.phase = .idle → ∃ t l, exec i s = .next t ∧ t.latch = some l ∧ l.ir = i ∧ l.ndisp = 0 ∧
        l.nimm = (if w = .word then 2 else 1) ∧ l.need = l.nimm - 1 ∧ t.pos = s.pos + 2 ∧ t.phase = .trailing) ∧
      (w = .byte → s.phase = .trailing → s.latch = some ⟨i, 0, 1, 0⟩ →
        ∃ t, exec i s = .next t ∧ t.pos = s.pos ∧ t.phase = .idle ∧
          t.out = s.out ++ [Record.mk i s.ioff 2 (.immReg (.byte b1)) (.reg w reg) (.imm (.byte b1))]) ∧
      (w = .word → s.phase = .trailing → s.latch = some ⟨i, 0, 2, 1⟩ →
        (∀ hi, s.stream.window s.pos 1 = [hi] →
          ∃ t v, exec i s = .next t ∧ t.pos = s.pos + 1 ∧ t.phase = .idle ∧
            v.toNat = hi.toNat * 256 + b1.toNat ∧
            t.out = s.out ++ [Record.mk i s.ioff 3 (.immReg (.word v)) (.reg w reg) (.imm (.word v))]) ∧
        (s.stream.window s.pos 1 = [] →
          ∃ t, exec i s = .next t ∧ t.err.map ErrorReg.kind = some .truncatedStream ∧ t.out = s.out))

/-- ACC_MEM (41_mov.md R65, R66): two address bytes whatever the width, the first of them in the chunk, between the
accumulator and a direct address (the spec's general knowledge). `latch := none`, `out` and `result` are the model's (log 4,
log 3). -/
def Obligations.AccMemInstructionsComplete : Prop :=
  ∀ (w : Width) (b1 hi : Byte) (i : Instr), (i = .movAccAddr w b1 ∨ i = .movAddrAcc w b1) →
    ∀ s : State,
      (s.phase = .idle →
        exec i s = .next { s with
          ioff := s.pos, latch := some ⟨i, 2, 0, 1⟩, pos := s.pos + 2, phase := .trailing,
          result := some (.header .movAccMem 1) }) ∧
      (s.phase = .trailing → s.latch = some ⟨i, 2, 0, 1⟩ → s.stream.window s.pos 1 = [hi] →
        ∃ addr r, addr.toNat = hi.toNat * 256 + b1.toNat ∧
          r = Record.mk i s.ioff 3 (.accMem addr)
            (if i = .movAccAddr w b1 then .reg w 0 else .direct addr)
            (if i = .movAccAddr w b1 then .direct addr else .reg w 0) ∧
          exec i s = .next { s with
            pos := s.pos + 1, phase := .idle, latch := none, out := s.out ++ [r], result := some (.record r) })

/-- IMM_ACC (42_arith.md R79 to R82): the accumulator and an immediate of the width, whose low byte is in the chunk (the
spec's general knowledge). `latch := none`, `out` and `result` are the model's (log 4, log 3). -/
def Obligations.AccImmInstructionsComplete : Prop :=
  ∀ (w : Width) (b1 : Byte) (more : List Byte) (imm : Imm) (i : Instr),
    (i = .addAccImm w b1 ∨ i = .sbbAccImm w b1 ∨ i = .subAccImm w b1 ∨ i = .cmpAccImm w b1) →
    ((w = .byte ∧ more = [] ∧ imm = .byte b1) ∨
      (w = .word ∧ ∃ hi v, more = [hi] ∧ imm = .word v ∧ v.toNat = hi.toNat * 256 + b1.toNat)) →
    ∀ s : State,
      (s.phase = .idle →
        exec i s = .next { s with
          ioff := s.pos, latch := some ⟨i, 0, more.length + 1, more.length⟩, pos := s.pos + 2, phase := .trailing,
          result := some (.header .arith more.length) }) ∧
      (s.phase = .trailing → s.latch = some ⟨i, 0, more.length + 1, more.length⟩ →
        s.stream.window s.pos more.length = more →
        ∃ r, r = Record.mk i s.ioff (2 + more.length) (.immAcc imm) (.reg w 0) (.imm imm) ∧
          exec i s = .next { s with
            pos := s.pos + more.length, phase := .idle, latch := none, out := s.out ++ [r],
            result := some (.record r) })

/-- A trailing transaction with fewer bytes than `need` raises `TruncatedStream`: no record is emitted, the bytes that were
supplied are not used, and DFE halts (45_sequencer.md R113). The records handed over are the field `out` (log 3). -/
def Obligations.ShortTrailingRaisesTruncated : Prop :=
  ∀ (s : State) (i : Instr) (bytes : List Byte), s.phase = .trailing → s.latch = some i.latched →
    bytes = s.stream.window s.pos i.need → bytes.length < i.need →
    ∃ t, serve (.trailing bytes) s = .next t ∧ t.err.map ErrorReg.kind = some .truncatedStream ∧
      t.phase = .halted ∧ t.out = s.out ∧ t.pos = s.pos

/-- The frame of every instruction: the stream and the caller's pending transactions stay; a header step emits nothing and
records no error; a trailing step either emits one record and records no error, or emits nothing and moves neither `pos`
nor the latched registers. -/
def Obligations.InstructionFrame : Prop :=
  ∀ (i : Instr) (s t : State), exec i s = .next t →
    t.stream = s.stream ∧ (∀ a, t.stream.read a = s.stream.read a) ∧ t.calls = s.calls ∧
    ((s.phase = .idle ∧ t.phase = .trailing ∧ t.ioff = s.pos ∧ t.out = s.out ∧ t.err = s.err) ∨
     (s.phase = .trailing ∧ t.phase = .idle ∧ t.ioff = s.ioff ∧ t.err = s.err ∧ ∃ r, t.out = s.out ++ [r]) ∨
     (s.phase = .trailing ∧ t.phase = .halted ∧ t.ioff = s.ioff ∧ t.out = s.out ∧ t.pos = s.pos ∧ t.latch = s.latch))

/-! Steps. -/

/-- In IDLE a step of the canonical caller runs the instruction the next chunk decodes to (45_sequencer.md R110). -/
def Obligations.StepRunsDecodedHeader : Prop :=
  ∀ (s : State) (i : Instr) (rest : List Byte), s.calls = [] → s.phase = .idle →
    decode (s.stream.window s.pos 2) = .instr i rest → i.wellFormed Config.strictReserved = true → step s = exec i s

/-- In TRAILING a step of the canonical caller runs the instruction in the instruction register (45_sequencer.md R112). -/
def Obligations.StepRunsOpenInstruction : Prop :=
  ∀ (s : State) (l : Latch), s.calls = [] → s.phase = .trailing → s.latch = some l → step s = exec l.ir s

/-- At the end of the stream, at an instruction boundary, a step changes nothing but what the caller is told
(45_sequencer.md R111; the field `result` is the model's, log 3, and so is that a caller already told END_OF_STREAM asks
again, log 15). -/
def Obligations.EndOfStreamChangesNothing : Prop :=
  ∀ s : State, s.calls = [] → s.phase = .idle → s.stream.read s.pos = none →
    step s = .next { s with result := some .endOfStream }

/-- The header checks in the order of 60_exceptions.md R124 (the spec's decision D20), each with the whole error entry of
R125 (decisions D16, D17): the offset of the opcode byte is saved and nothing is consumed. -/
def Obligations.HeaderErrorsByPriority : Prop :=
  ∀ (s : State) (b0 : Byte) (more : List Byte) (raised : ErrorKind → State), s.calls = [] → s.phase = .idle →
    s.stream.window s.pos 2 = b0 :: more →
    (∀ k, raised k = { s with
      ioff := s.pos, err := some ⟨k, s.pos⟩, phase := .halted, result := some (.error k s.pos) }) →
    (classify b0 = none → step s = .next (raised .unrecognizedOpcode)) ∧
    (classify b0 ≠ none → more = [] → step s = .next (raised .truncatedStream)) ∧
    (∀ b1, more = [b1] → b0 &&& 0xFC = 0x80 → sel (b1.extractLsb' 3 3) = none →
      step s = .next (raised .unknownArithmeticOp)) ∧
    (∀ b1, more = [b1] → classify b0 ≠ none → ¬ (b0 &&& 0xFC = 0x80 ∧ sel (b1.extractLsb' 3 3) = none) →
      ∃ i, decode [b0, b1] = .instr i [] ∧ step s = .next (s.openHeader i.latched))

/-- HALTED is left only by reset, which starts over at offset 0 with the error register clear, and nothing else is accepted
there (60_exceptions.md R127). `newRun` is reset on a stream of the caller's choosing (log 2). -/
def Obligations.HaltedLeftOnlyByReset : Prop :=
  ∀ s : State, s.phase = .halted →
    (∀ cs, s.calls = .reset :: cs → ∃ t, step s = .next t) ∧
    ∀ t, step s = .next t →
      ((∃ cs, s.calls = .reset :: cs) ∨ ∃ bs cs, s.calls = .newRun bs :: cs) ∧
      t.phase = .idle ∧ t.pos = 0 ∧ t.err = none

/-- With nothing pending, a step in HALTED is the fault `halted` (the model's choice, log 9, after 93 U9 "stuck"). -/
def Obligations.HaltedCanonicalStepFaults : Prop :=
  ∀ s : State, s.phase = .halted → s.calls = [] → step s = .fault .halted

/-- `reset()` is accepted in every phase and leaves the state of 10_state.md R24 (the spec's decision D6); the stream and
the records already handed over are the caller's and stay (log 13); `latch := none` and `result := none` are the model's
(log 4, log 3). -/
def Obligations.ResetAcceptedInEveryPhase : Prop :=
  ∀ (s : State) (cs : List Call), s.calls = .reset :: cs →
    step s = .next { s with
      pos := 0, ioff := 0, phase := .idle, latch := none, err := none, result := none, calls := cs }

/-- The state after reset (10_state.md R24, the spec's decision D6); the empty stream, records, result and pending list
are the model's (log 2, 3, 6), and so is the empty latch (log 4). -/
def Obligations.ResetStateValues : Prop :=
  State.reset.pos = 0 ∧ State.reset.ioff = 0 ∧ State.reset.phase = .idle ∧ errKindCode State.reset = 0 ∧
  State.reset.latch = none ∧ State.reset.stream = [] ∧ State.reset.out = [] ∧ State.reset.result = none ∧
  State.reset.calls = [] ∧ Sys2Proof.core.reset = State.reset

/-- A new run begins on exactly the bytes the caller fixed, from reset, with no records (70_reset_and_hazards.md R138, R139;
log 8, log 13; `latch` and `out` are the model's, log 4, log 3). -/
def Obligations.NewRunStartsOnItsStream : Prop :=
  ∀ (s : State) (bs : List Byte) (cs : List Call), s.calls = .newRun bs :: cs →
    ∃ t, step s = .next t ∧ (∀ a, t.stream.read a = bs[a]?) ∧ t.stream.dense ∧ t.stream.length = bs.length ∧
      t.out = [] ∧ t.pos = 0 ∧ t.ioff = 0 ∧ t.phase = .idle ∧ t.err = none ∧ t.latch = none ∧ t.calls = cs

/-- Transactions outside the protocol are refused (45_sequencer.md R117, the spec's decision D18; the names are the
model's). -/
def Obligations.ProtocolBreachesRefused : Prop :=
  (∀ (s : State) (chunk : List Byte),
    (s.phase ≠ .idle → serve (.header chunk) s = .refused .headerOutOfPhase) ∧
    (s.phase = .idle → 2 < chunk.length → serve (.header chunk) s = .refused .headerTooLong) ∧
    (s.phase = .idle → chunk.length ≤ 2 → chunk.length < (s.stream.window s.pos 2).length →
      serve (.header chunk) s = .refused .bytesWithheld)) ∧
  ∀ (s : State) (bytes : List Byte),
    (s.phase ≠ .trailing → serve (.trailing bytes) s = .refused .trailingOutOfPhase) ∧
    ∀ l, s.phase = .trailing → s.latch = some l →
      (l.need < bytes.length → serve (.trailing bytes) s = .refused .trailingTooLong) ∧
      (bytes.length ≤ l.need → bytes.length < (s.stream.window s.pos l.need).length →
        serve (.trailing bytes) s = .refused .bytesWithheld)

/-- Under the invariant the canonical caller is never refused: until DFE halts, every step reaches a next state. That there
is a step after END_OF_STREAM is the model's choice (log 15). -/
def Obligations.CanonicalCallerNeverRefused : Prop :=
  ∀ s : State, s.Inv → s.calls = [] → s.phase ≠ .halted → ∃ t, step s = .next t

/-- DFE writes nothing to the stream and withdraws no record: unless the caller starts a new run, every offset reads as
before and the records handed over stay (20_memory.md R30, R32). -/
def Obligations.StepKeepsStreamAndRecords : Prop :=
  ∀ s t : State, step s = .next t → (∀ bs cs, s.calls ≠ .newRun bs :: cs) →
    t.stream = s.stream ∧ (∀ a, t.stream.read a = s.stream.read a) ∧ ∃ more, t.out = s.out ++ more ∧ more.length ≤ 1

/-- `pos` never moves backwards except by reset, and one transaction consumes at most four bytes (10_state.md R14,
43_resolver.md R87). -/
def Obligations.PositionNeverMovesBack : Prop :=
  ∀ s t : State, step s = .next t → (∀ cs, s.calls ≠ .reset :: cs) → (∀ bs cs, s.calls ≠ .newRun bs :: cs) →
    s.pos ≤ t.pos ∧ t.pos ≤ s.pos + 4

/-- The invariant holds at reset. -/
def Obligations.InvariantHoldsAtReset : Prop := State.reset.Inv

/-- Every step keeps the invariant, whatever the caller asks for: the stream stays a stream, `pos` stays in it, every record
handed over has the shape and the operands of its form (43_resolver.md R96), each phase has its registers, and
`InvalidMode` is never recorded. -/
def Obligations.EveryStepKeepsInvariant : Prop :=
  ∀ s t : State, s.Inv → step s = .next t → t.Inv

/-! Whole runs (45_sequencer.md R114 to R116). -/

/-- Every run ends, cleanly with everything consumed or halted with an error, never both (45_sequencer.md R115). -/
def Obligations.EveryRunEndsCleanOrHalted : Prop :=
  ∀ bytes : List Byte, ∃ t, runStream bytes = some t ∧ t.stream.length = bytes.length ∧
    ((t.cleanEnd ∧ ¬ t.haltedEnd) ∨ (t.haltedEnd ∧ ¬ t.cleanEnd))

/-- The records of a run tile the stream, up to its end or up to the failing instruction, and each is 2 to 6 bytes long
(the spec's decision D30, 30_encoding.md R46). -/
def Obligations.RecordsTileTheStream : Prop :=
  ∀ (bytes : List Byte) (rs : List Record) (e : Option ErrorReg), decodeStream bytes = some (rs, e) →
    tiles 0 (match e with | none => bytes.length | some e => e.offset) rs ∧
    ∀ r ∈ rs, 2 ≤ r.len ∧ r.len ≤ 6

/-- The records of a clean run encode to the stream they came from: decoding loses nothing. -/
def Obligations.CleanRunReencodesToItsStream : Prop :=
  ∀ (bytes : List Byte) (rs : List Record), decodeStream bytes = some (rs, none) →
    rs.flatMap (fun r => encodeComplete r.instr r.data) = bytes

/-- Any list of completed instructions, encoded one after another, decodes to itself, with every operand at every value its
encoding admits. -/
def Obligations.EncodedProgramDecodesToItself : Prop :=
  ∀ prog : List (Instr × Attached),
    (∀ x ∈ prog, x.1.wellFormed Config.strictReserved = true ∧ x.1.fits x.2 = true) →
    ∃ rs, decodeStream (prog.flatMap fun x => encodeComplete x.1 x.2) = some (rs, none) ∧
      rs.map (fun r => (r.instr, r.data)) = prog

/-- If a stream decodes cleanly, every extension of it begins with the same records (45_sequencer.md R116). -/
def Obligations.ExtendedStreamKeepsRecords : Prop :=
  ∀ (bytes ext : List Byte) (rs : List Record), decodeStream bytes = some (rs, none) →
    ∃ rs' e, decodeStream (bytes ++ ext) = some (rs ++ rs', e)

/-- The k-th record depends only on the stream bytes up to the end of the k-th instruction: two streams that agree on
those bytes have the same k-th record (45_sequencer.md R116, 20_memory.md R32 b). -/
def Obligations.RecordsDependOnConsumedBytesOnly : Prop :=
  ∀ (a b : List Byte) (n : Nat) (rs rs' : List Record) (e e' : Option ErrorReg), a.take n = b.take n →
    decodeStream a = some (rs, e) → decodeStream b = some (rs', e') →
    ∀ (k : Nat) (r : Record), rs[k]? = some r → r.ioff + r.len ≤ n → rs'[k]? = some r

/-- Every instruction cut short by the end of the stream is `TruncatedStream`, at whatever byte it is cut, and emits no
record: a missing byte is never read as any value (20_memory.md R35; one byte alone is the spec's decision D15, the
offset D16). -/
def Obligations.CutInstructionIsTruncated : Prop :=
  ∀ (i : Instr) (a : Attached) (n : Nat), i.wellFormed Config.strictReserved = true → i.fits a = true → 0 < n →
    n < (encodeComplete i a).length →
    decodeStream ((encodeComplete i a).take n) = some ([], some ⟨.truncatedStream, 0⟩)

/-- No run ends with `InvalidMode` (60_exceptions.md R122, the spec's decision D21). -/
def Obligations.NoRunRecordsInvalidMode : Prop :=
  ∀ (bytes : List Byte) (rs : List Record) (e : ErrorReg), decodeStream bytes = some (rs, some e) →
    e.kind ≠ .invalidMode

/-! Renderer and codes. -/

/-- A record renders as its lower-case mnemonic, a space, the destination with its size keyword, a comma and a space, and
the source (44_renderer.md R99, R100). The size keyword and its place before the destination are the spec's decision D25
(R105, log 14). -/
def Obligations.RenderedLineShape : Prop :=
  ∀ r : Record,
    (r.instr.op = .mov → render r = "mov " ++ (sizeText r ++ operandText r.dst) ++ ", " ++ operandText r.src) ∧
    (r.instr.op = .arith .add → render r = "add " ++ (sizeText r ++ operandText r.dst) ++ ", " ++ operandText r.src) ∧
    (r.instr.op = .arith .sbb → render r = "sbb " ++ (sizeText r ++ operandText r.dst) ++ ", " ++ operandText r.src) ∧
    (r.instr.op = .arith .sub → render r = "sub " ++ (sizeText r ++ operandText r.dst) ++ ", " ++ operandText r.src) ∧
    (r.instr.op = .arith .cmp → render r = "cmp " ++ (sizeText r ++ operandText r.dst) ++ ", " ++ operandText r.src)

/-- The size keyword stands exactly before a memory destination in the form IMM_RM (44_renderer.md R105, the spec's
decision D25). -/
def Obligations.SizeKeywordExactly : Prop :=
  ∀ r : Record,
    ((r.instr.form = .immRm ∧ ((∃ rm disp, r.dst = .mem rm disp) ∨ ∃ a, r.dst = .direct a)) →
      sizeText r = if r.instr.w = .byte then "byte " else "word ") ∧
    (¬ (r.instr.form = .immRm ∧ ((∃ rm disp, r.dst = .mem rm disp) ∨ ∃ a, r.dst = .direct a)) → sizeText r = "")

/-- The text of a memory operand tells its displacement, and whether there is one: a present zero is printed
(44_renderer.md R102, the spec's decision D22); the text of a direct address tells the address (R103, D23). -/
def Obligations.MemoryTextTellsDisplacement : Prop :=
  (∀ (rm : U3) (disp disp' : Option U16), operandText (.mem rm disp) = operandText (.mem rm disp') → disp = disp') ∧
  ∀ a a' : U16, operandText (.direct a) = operandText (.direct a') → a = a'

/-- The numeric codes of 10_state.md R21 (the spec's decision D4). -/
def Obligations.NumericCodes : Prop :=
  [Phase.idle, .trailing, .halted].map phaseCode = [0, 1, 2] ∧
  [Family.movImmReg, .movImmRm, .movRmReg, .movAccMem, .arith].map familyCode = [1, 2, 3, 4, 5] ∧
  [Form.rmReg, .immRm, .immReg, .accMem, .immAcc].map formCode = [0, 1, 2, 3, 4] ∧
  [Op.arith .add, .arith .sbb, .arith .sub, .arith .cmp, .mov].map opCode = [0, 3, 5, 7, 8] ∧
  [Width.byte, .word].map widthCode = [0, 1] ∧
  [Mode.memNoDisp, .memByteDisp, .memWordDisp, .register].map modeCode = [0, 1, 2, 3] ∧
  [ErrorKind.unrecognizedOpcode, .unknownArithmeticOp, .invalidMode, .truncatedStream].map errorCode = [1, 2, 3, 4] ∧
  ∀ s : State, errKindCode s = 0 ↔ s.err = none
end

