-- ==== Sys2Proof/Laws/Decode.lean ====
section
/-! SUPPORT. What the classifier and the header decoder answer, said once. -/

namespace Sys2Proof

/-- A fact of every byte is a fact of 256 numbers, which the kernel can go through. -/
theorem forall_byte {P : Byte → Prop} (h : ∀ n : Fin 256, P (BitVec.ofFin n)) (b : Byte) : P b := h b.toFin

theorem mem_of_classify {b0 : Byte} {row : ClassRow} (h : classify b0 = some row) :
    row ∈ classifierTable ∧ b0 &&& row.mask = row.bits :=
  ⟨List.mem_of_find?_eq_some h, by simpa [ClassRow.accepts] using List.find?_some h⟩

/-- No byte matches two rows (40_classifier.md R55). -/
theorem classifierRows_disjoint (b : Byte) :
    ∀ r ∈ classifierTable, ∀ r' ∈ classifierTable, r.accepts b = true → r'.accepts b = true → r = r' := by
  revert b
  exact forall_byte (by decide +kernel)

theorem extract_error {l : Layout} {b0 b1 : Byte} {k : ErrorKind} (h : extract l b0 b1 = .error k) :
    k = .unknownArithmeticOp ∧ l = .arithImmRm ∧ sel (regOf b1) = none := by
  cases l <;> simp only [extract, reduceCtorEq] at h
  split at h
  · cases h
  · cases h
    exact ⟨rfl, rfl, by assumption⟩

theorem decode_two (b0 b1 : Byte) (rest : List Byte) {row : ClassRow} (h : classify b0 = some row) :
    decode (b0 :: b1 :: rest) =
      match extract row.layout b0 b1 with
      | .ok i => .instr i rest
      | .error k => .error k := by
  rcases he : extract row.layout b0 b1 with k | i <;> simp only [decode, h, he]

theorem decode_two_none (b0 b1 : Byte) (rest : List Byte) (h : classify b0 = none) :
    decode (b0 :: b1 :: rest) = .error .unrecognizedOpcode := by
  simp only [decode, h]

/-- An error of the header decoder is one of three. -/
theorem decode_error {bytes : List Byte} {k : ErrorKind} (h : decode bytes = .error k) :
    ∃ b0 more, bytes = b0 :: more ∧
      ((k = .unrecognizedOpcode ∧ classify b0 = none) ∨
       (k = .truncatedStream ∧ classify b0 ≠ none ∧ more = []) ∨
       (∃ b1 rest row, k = .unknownArithmeticOp ∧ more = b1 :: rest ∧ classify b0 = some row ∧
         row.layout = .arithImmRm ∧ sel (regOf b1) = none)) := by
  match bytes, h with
  | [b0], h =>
    refine ⟨b0, [], rfl, ?_⟩
    rcases hc : classify b0 with _ | row
    · exact .inl ⟨by simpa [decode, hc] using h.symm, rfl⟩
    · exact .inr (.inl ⟨by simpa [decode, hc] using h.symm, by simp, rfl⟩)
  | b0 :: b1 :: rest, h =>
    refine ⟨b0, b1 :: rest, rfl, ?_⟩
    rcases hc : classify b0 with _ | row
    · exact .inl ⟨by simpa [decode, hc] using h.symm, rfl⟩
    · rw [decode_two b0 b1 rest hc] at h
      rcases he : extract row.layout b0 b1 with k' | i
      · simp only [he, Decoded.error.injEq] at h
        subst h
        obtain ⟨hk, hl, hs⟩ := extract_error he
        exact .inr (.inr ⟨b1, rest, row, hk, rfl, rfl, hl, hs⟩)
      · simp [he] at h

/-- An instruction of the header decoder is what its row's extractor reads from the first two bytes. -/
theorem decode_instr {bytes rest : List Byte} {i : Instr} (h : decode bytes = .instr i rest) :
    ∃ b0 b1 row, bytes = b0 :: b1 :: rest ∧ classify b0 = some row ∧ extract row.layout b0 b1 = .ok i := by
  match bytes, h with
  | [b0], h => rcases hc : classify b0 with _ | row <;> simp [decode, hc] at h
  | b0 :: b1 :: r, h =>
    rcases hc : classify b0 with _ | row
    · simp [decode, hc] at h
    · rw [decode_two b0 b1 r hc] at h
      rcases he : extract row.layout b0 b1 with k | i'
      · simp [he] at h
      · simp only [he, Decoded.instr.injEq] at h
        obtain ⟨rfl, rfl⟩ := h
        exact ⟨b0, b1, row, rfl, hc, he⟩

theorem decode_endOfStream {bytes : List Byte} (h : decode bytes = .endOfStream) : bytes = [] := by
  match bytes, h with
  | [], _ => rfl
  | [b0], h => rcases hc : classify b0 with _ | row <;> simp [decode, hc] at h
  | b0 :: b1 :: r, h =>
    rcases hc : classify b0 with _ | row
    · simp [decode, hc] at h
    · rw [decode_two b0 b1 r hc] at h
      rcases he : extract row.layout b0 b1 with k | i' <;> simp [he] at h

@[simp] theorem Mode.ofBits_bits (m : Mode) : Mode.ofBits m.bits = m := by cases m <;> rfl

@[simp] theorem Width.ofBit_bit (w : Width) : Width.ofBit (w.bit.getLsbD 0) = w := by cases w <;> rfl

end Sys2Proof
end

