-- ==== Sys2Proof/Laws/Operands.lean ====
section
/-! SUPPORT. The values of the displacement parser, and that a tail of the right length always finishes. -/

namespace Sys2Proof

@[simp] theorem toNat_le16 (lo hi : Byte) : (le16 lo hi).toNat = hi.toNat * 256 + lo.toNat := by
  simp only [le16, BitVec.toNat_ofNat]
  omega

@[simp] theorem lowByte_le16 (lo hi : Byte) : lowByte (le16 lo hi) = lo := by
  apply BitVec.eq_of_toNat_eq
  simp only [lowByte, BitVec.toNat_setWidth, toNat_le16]
  omega

@[simp] theorem lowByte_sext16 (b : Byte) : lowByte (sext16 b) = b := by
  revert b
  exact forall_byte (by decide +kernel)

/-- The two bytes of a 16-bit field assemble to it again (20_memory.md R26). -/
@[simp] theorem le16_bytes (v : U16) : le16 (v.extractLsb' 0 8) (v.extractLsb' 8 8) = v := by
  apply BitVec.eq_of_toNat_eq
  simp only [toNat_le16, BitVec.extractLsb'_toNat, Nat.shiftRight_eq_div_pow]
  omega

/-- Displacement bytes of the count a mode has are the displacement the rm operand needs. -/
theorem rmOperand_isSome (mode : Mode) (w : Width) (rm : U3) {bytes : List Byte}
    (h : bytes.length = dispCount mode rm) : ∃ op, rmOperand mode w rm (dispValue bytes) = some op := by
  by_cases hr : mode = .register
  · exact ⟨.reg w rm, by simp [rmOperand, hr]⟩
  · by_cases hd : isDirect mode rm = true
    · have hm : mode = .memNoDisp := by
        simp only [isDirect, Bool.and_eq_true, beq_iff_eq] at hd
        exact hd.1
      subst hm
      simp only [dispCount, hd, if_true] at h
      match bytes, h with
      | [lo, hi], _ => exact ⟨.direct (le16 lo hi), by simp [rmOperand, hd, dispValue]⟩
    · exact ⟨.mem rm (dispValue bytes), by simp [rmOperand, hr, hd]⟩

/-- Immediate bytes of the count a width and `s` have are an immediate. -/
theorem immValue_isSome (s : Bool) (w : Width) {bytes : List Byte} (h : bytes.length = immCountSigned s w) :
    ∃ imm, immValue w s bytes = some imm := by
  cases s <;> cases w <;> simp only [immCountSigned, immCount, Bool.false_eq_true, if_false, if_true] at h
  · match bytes, h with
    | [b], _ => exact ⟨_, rfl⟩
  · match bytes, h with
    | [lo, hi], _ => exact ⟨_, rfl⟩
  · match bytes, h with
    | [b], _ => exact ⟨_, rfl⟩
  · match bytes, h with
    | [b], _ => exact ⟨_, rfl⟩

theorem isSextByte_sext16 (b : Byte) : isSextByte (sext16 b) = true := by
  revert b
  exact forall_byte (by decide +kernel)

theorem extract_low_sext16 (b : Byte) : (sext16 b).extractLsb' 0 8 = b := by
  revert b
  exact forall_byte (by decide +kernel)

theorem extract_low_le16 (lo hi : Byte) : (le16 lo hi).extractLsb' 0 8 = lo := by
  apply BitVec.eq_of_toNat_eq
  simp only [BitVec.extractLsb'_toNat, toNat_le16, Nat.shiftRight_zero]
  omega

theorem extract_high_le16 (lo hi : Byte) : (le16 lo hi).extractLsb' 8 8 = hi := by
  apply BitVec.eq_of_toNat_eq
  simp only [BitVec.extractLsb'_toNat, toNat_le16, Nat.shiftRight_eq_div_pow]
  omega

theorem leBytes_le16 (lo hi : Byte) : leBytes (le16 lo hi) = [lo, hi] := by
  rw [leBytes, extract_low_le16, extract_high_le16]

/-- The displacement read from a mode's bytes has the mode's shape and encodes to those bytes. -/
theorem dispValue_spec (mode : Mode) (rm : U3) {bytes : List Byte} (h : bytes.length = dispCount mode rm) :
    dispFits mode rm (dispValue bytes) = true ∧ dispBytes mode (dispValue bytes) = bytes := by
  cases mode with
  | memNoDisp =>
    by_cases hr : rm = 0b110
    · simp only [dispCount, isDirect, hr, beq_self_eq_true, Bool.and_self, if_true] at h
      match bytes, h with
      | [lo, hi], _ => simp [dispValue, dispFits, dispBytes, leBytes_le16, hr]
    · simp only [dispCount, isDirect, beq_self_eq_true, Bool.true_and, beq_iff_eq, hr, if_false] at h
      rw [List.eq_nil_of_length_eq_zero h]
      simpa [dispValue, dispFits, dispBytes] using hr
  | memByteDisp =>
    match bytes, h with
    | [b], _ => simp [dispValue, dispFits, dispBytes, isSextByte_sext16, extract_low_sext16]
  | memWordDisp =>
    match bytes, h with
    | [lo, hi], _ => simp [dispValue, dispFits, dispBytes, leBytes_le16]
  | register =>
    rw [List.eq_nil_of_length_eq_zero h]
    simp [dispValue, dispFits, dispBytes]

/-- The immediate read from its bytes has its shape and encodes to those bytes. -/
theorem immValue_spec {s : Bool} {w : Width} {bytes : List Byte} {imm : Imm} (h : immValue w s bytes = some imm) :
    immFits s w imm = true ∧ immBytes s imm = bytes := by
  simp only [immValue] at h
  split at h
  · cases h; simp [immFits, immBytes]
  · cases h; simp [immFits, immBytes, leBytes_le16]
  · cases h; simp [immFits, immBytes, isSextByte_sext16, extract_low_sext16]
  · cases h

end Sys2Proof
end

