-- ==== Sys2Proof/Laws/Memory.lean ====
section
/-! SUPPORT. The laws of the stream memory: a read after a write, the canonical form, and what a stream made of bytes
reads as. -/

namespace Sys2Proof.Machine

theorem Memory.read_write_same (m : Memory) (a : Nat) (b : Byte) : (Memory.write a b m).read a = some b := by
  induction m with
  | nil => simp [Memory.write, Memory.read]
  | cons c m ih =>
    simp only [Memory.write]
    split
    · simp [Memory.read]
    · split
      · simp [Memory.read]
      · rename_i h
        simp [Memory.read, ih, Ne.symm h]

theorem Memory.read_write_other (m : Memory) {a x : Nat} (b : Byte) (h : x ≠ a) :
    (Memory.write a b m).read x = m.read x := by
  induction m with
  | nil => simp [Memory.write, Memory.read, Ne.symm h]
  | cons c m ih =>
    simp only [Memory.write]
    split
    · simp [Memory.read, Ne.symm h]
    · split
      · rename_i hc
        simp [Memory.read, ← hc, Ne.symm h]
      · simp [Memory.read, ih]

theorem Memory.mem_write {m : Memory} {a : Nat} {b : Byte} {c : Host.Cell} (h : c ∈ Memory.write a b m) :
    c = (a, b) ∨ c ∈ m := by
  induction m with
  | nil => simpa [Memory.write] using h
  | cons d m ih =>
    simp only [Memory.write] at h
    split at h
    · simpa using h
    · split at h
      · simp only [List.mem_cons] at h ⊢; tauto
      · simp only [List.mem_cons] at h ⊢
        rcases h with h | h
        · exact .inr (.inl h)
        · rcases ih h with h | h
          · exact .inl h
          · exact .inr (.inr h)

theorem Memory.write_wf {m : Memory} (h : m.wf) (a : Nat) (b : Byte) : (Memory.write a b m).wf := by
  induction m with
  | nil => simp [Memory.write]
  | cons c m ih =>
    have ⟨hc, hm⟩ := List.pairwise_cons.1 h
    simp only [Memory.write]
    split
    · rename_i hlt
      refine List.pairwise_cons.2 ⟨fun d hd => ?_, h⟩
      rcases List.mem_cons.1 hd with rfl | hd
      · exact hlt
      · exact Nat.lt_trans hlt (hc d hd)
    · split
      · rename_i heq
        exact List.pairwise_cons.2 ⟨fun d hd => by simpa [heq] using hc d hd, hm⟩
      · refine List.pairwise_cons.2 ⟨fun d hd => ?_, ih hm⟩
        rcases Memory.mem_write hd with rfl | hd
        · simp only; omega
        · exact hc d hd

theorem Memory.writeBytes_wf {m : Memory} (h : m.wf) (a : Nat) (bs : List Byte) : (m.writeBytes a bs).wf := by
  induction bs generalizing m a with
  | nil => exact h
  | cons b bs ih => exact ih (Memory.write_wf h a b) (a + 1)

theorem Memory.read_writeBytes_below (m : Memory) {a x : Nat} (bs : List Byte) (h : x < a) :
    (m.writeBytes a bs).read x = m.read x := by
  induction bs generalizing m a with
  | nil => rfl
  | cons b bs ih =>
    rw [Memory.writeBytes, ih _ (Nat.lt_succ_of_lt h), Memory.read_write_other m b (Nat.ne_of_lt h)]

theorem Memory.window_writeBytes (m : Memory) (a : Nat) (bs : List Byte) :
    (m.writeBytes a bs).window a bs.length = bs := by
  induction bs generalizing m a with
  | nil => rfl
  | cons b bs ih =>
    have hread : (m.writeBytes a (b :: bs)).read a = some b := by
      rw [Memory.writeBytes, Memory.read_writeBytes_below _ _ (Nat.lt_succ_self a), Memory.read_write_same]
    rw [List.length_cons, Memory.window, hread]
    simp only [List.cons.injEq, true_and]
    exact ih _ (a + 1)

theorem Memory.dense_wf {m : Memory} (h : m.dense) : m.wf := by
  have hp : (m.map Prod.fst).Pairwise (· < ·) := by rw [h]; exact List.pairwise_lt_range
  exact List.pairwise_map.1 hp

@[simp] theorem Memory.length_ofBytesFrom (a : Nat) (bs : List Byte) : (Memory.ofBytesFrom a bs).length = bs.length := by
  induction bs generalizing a with
  | nil => rfl
  | cons b bs ih => simp [Memory.ofBytesFrom, ih]

@[simp] theorem Memory.length_ofBytes (bs : List Byte) : (Memory.ofBytes bs).length = bs.length :=
  Memory.length_ofBytesFrom 0 bs

theorem Memory.fst_ofBytesFrom (a : Nat) (bs : List Byte) :
    (Memory.ofBytesFrom a bs).map Prod.fst = List.range' a bs.length := by
  induction bs generalizing a with
  | nil => rfl
  | cons b bs ih => simp [Memory.ofBytesFrom, ih, List.range'_succ]

theorem Memory.ofBytes_dense (bs : List Byte) : (Memory.ofBytes bs).dense := by
  rw [Memory.dense, Memory.length_ofBytes, List.range_eq_range']
  exact Memory.fst_ofBytesFrom 0 bs

theorem Memory.snd_ofBytesFrom (a : Nat) (bs : List Byte) : (Memory.ofBytesFrom a bs).map Prod.snd = bs := by
  induction bs generalizing a with
  | nil => rfl
  | cons b bs ih => simp [Memory.ofBytesFrom, ih]

theorem Memory.eq_ofBytesFrom {m : Memory} {a : Nat} (h : m.map Prod.fst = List.range' a m.length) :
    m = Memory.ofBytesFrom a (m.map Prod.snd) := by
  induction m generalizing a with
  | nil => rfl
  | cons c m ih =>
    simp only [List.map_cons, List.length_cons, List.range'_succ, List.cons.injEq] at h
    simp only [List.map_cons, Memory.ofBytesFrom, List.cons.injEq]
    exact ⟨Prod.ext h.1 rfl, ih h.2⟩

theorem Memory.read_ofBytesFrom (a : Nat) (bs : List Byte) (k : Nat) :
    (Memory.ofBytesFrom a bs).read (a + k) = bs[k]? := by
  induction bs generalizing a k with
  | nil => rfl
  | cons b bs ih =>
    cases k with
    | zero => simp [Memory.ofBytesFrom, Memory.read]
    | succ k =>
      have := ih (a + 1) k
      rw [Nat.add_assoc, Nat.add_comm 1 k] at this
      simp [Memory.ofBytesFrom, Memory.read, this]

theorem Memory.read_ofBytes (bs : List Byte) (k : Nat) : (Memory.ofBytes bs).read k = bs[k]? := by
  have h := Memory.read_ofBytesFrom 0 bs k
  rwa [Nat.zero_add] at h

theorem Memory.window_ofBytes (bs : List Byte) (a n : Nat) : (Memory.ofBytes bs).window a n = (bs.drop a).take n := by
  induction n generalizing a with
  | zero => simp [Memory.window]
  | succ n ih =>
    rw [Memory.window, Memory.read_ofBytes]
    by_cases h : a < bs.length
    · rw [List.getElem?_eq_getElem h, List.drop_eq_getElem_cons h, List.take_succ_cons, ← ih]
    · rw [List.getElem?_eq_none (Nat.le_of_not_lt h), List.drop_eq_nil_of_le (Nat.le_of_not_lt h), List.take_nil]

/-- A dense memory is the stream of its bytes. -/
theorem Memory.dense_eq_ofBytes {m : Memory} (h : m.dense) : m = Memory.ofBytes (m.map Prod.snd) :=
  Memory.eq_ofBytesFrom (by rw [h, List.range_eq_range'])

/-- What the caller hands over is `min(n, L - a)` bytes (45_sequencer.md R114). -/
theorem Memory.length_window_dense {m : Memory} (h : m.dense) (a n : Nat) :
    (m.window a n).length = min n (m.length - a) := by
  rw [Memory.dense_eq_ofBytes h, Memory.window_ofBytes]
  simp

theorem Memory.length_window_le (m : Memory) (a n : Nat) : (m.window a n).length ≤ n := by
  induction n generalizing a with
  | zero => simp [Memory.window]
  | succ n ih =>
    rw [Memory.window]
    split
    · simp
    · simpa using ih (a + 1)

theorem reset_stream_wf : State.reset.stream.wf := List.Pairwise.nil

end Sys2Proof.Machine
end

