-- ==== Sys2Proof/Laws/State.lean ====
section
/-! SUPPORT. What each update of the state leaves in each field: one lemma per field per update, so that no later proof
unfolds a record update. -/

namespace Sys2Proof.Machine

@[simp] theorem State.raise_pos (s : State) (k : ErrorKind) : (s.raise k).pos = s.pos := rfl
@[simp] theorem State.raise_ioff (s : State) (k : ErrorKind) : (s.raise k).ioff = s.ioff := rfl
@[simp] theorem State.raise_phase (s : State) (k : ErrorKind) : (s.raise k).phase = .halted := rfl
@[simp] theorem State.raise_latch (s : State) (k : ErrorKind) : (s.raise k).latch = s.latch := rfl
@[simp] theorem State.raise_err (s : State) (k : ErrorKind) : (s.raise k).err = some ⟨k, s.ioff⟩ := rfl
@[simp] theorem State.raise_stream (s : State) (k : ErrorKind) : (s.raise k).stream = s.stream := rfl
@[simp] theorem State.raise_out (s : State) (k : ErrorKind) : (s.raise k).out = s.out := rfl
@[simp] theorem State.raise_result (s : State) (k : ErrorKind) : (s.raise k).result = some (.error k s.ioff) := rfl
@[simp] theorem State.raise_calls (s : State) (k : ErrorKind) : (s.raise k).calls = s.calls := rfl

@[simp] theorem State.raiseHeader_pos (s : State) (k : ErrorKind) : (s.raiseHeader k).pos = s.pos := rfl
@[simp] theorem State.raiseHeader_ioff (s : State) (k : ErrorKind) : (s.raiseHeader k).ioff = s.pos := rfl
@[simp] theorem State.raiseHeader_phase (s : State) (k : ErrorKind) : (s.raiseHeader k).phase = .halted := rfl
@[simp] theorem State.raiseHeader_latch (s : State) (k : ErrorKind) : (s.raiseHeader k).latch = s.latch := rfl
@[simp] theorem State.raiseHeader_err (s : State) (k : ErrorKind) : (s.raiseHeader k).err = some ⟨k, s.pos⟩ := rfl
@[simp] theorem State.raiseHeader_stream (s : State) (k : ErrorKind) : (s.raiseHeader k).stream = s.stream := rfl
@[simp] theorem State.raiseHeader_out (s : State) (k : ErrorKind) : (s.raiseHeader k).out = s.out := rfl
@[simp] theorem State.raiseHeader_result (s : State) (k : ErrorKind) : (s.raiseHeader k).result = some (.error k s.pos) := rfl
@[simp] theorem State.raiseHeader_calls (s : State) (k : ErrorKind) : (s.raiseHeader k).calls = s.calls := rfl

@[simp] theorem State.resetDfe_pos (s : State) : s.resetDfe.pos = Config.startOffset := rfl
@[simp] theorem State.resetDfe_ioff (s : State) : s.resetDfe.ioff = 0 := rfl
@[simp] theorem State.resetDfe_phase (s : State) : s.resetDfe.phase = .idle := rfl
@[simp] theorem State.resetDfe_latch (s : State) : s.resetDfe.latch = none := rfl
@[simp] theorem State.resetDfe_err (s : State) : s.resetDfe.err = none := rfl
@[simp] theorem State.resetDfe_stream (s : State) : s.resetDfe.stream = s.stream := rfl
@[simp] theorem State.resetDfe_out (s : State) : s.resetDfe.out = s.out := rfl
@[simp] theorem State.resetDfe_result (s : State) : s.resetDfe.result = none := rfl
@[simp] theorem State.resetDfe_calls (s : State) : s.resetDfe.calls = s.calls := rfl

@[simp] theorem State.newRun_pos (s : State) (bs : List Byte) : (s.newRun bs).pos = Config.startOffset := rfl
@[simp] theorem State.newRun_ioff (s : State) (bs : List Byte) : (s.newRun bs).ioff = 0 := rfl
@[simp] theorem State.newRun_phase (s : State) (bs : List Byte) : (s.newRun bs).phase = .idle := rfl
@[simp] theorem State.newRun_latch (s : State) (bs : List Byte) : (s.newRun bs).latch = none := rfl
@[simp] theorem State.newRun_err (s : State) (bs : List Byte) : (s.newRun bs).err = none := rfl
@[simp] theorem State.newRun_stream (s : State) (bs : List Byte) : (s.newRun bs).stream = Memory.ofBytes bs := rfl
@[simp] theorem State.newRun_out (s : State) (bs : List Byte) : (s.newRun bs).out = [] := rfl
@[simp] theorem State.newRun_result (s : State) (bs : List Byte) : (s.newRun bs).result = none := rfl
@[simp] theorem State.newRun_calls (s : State) (bs : List Byte) : (s.newRun bs).calls = s.calls := rfl

@[simp] theorem State.endOfStream_pos (s : State) : s.endOfStream.pos = s.pos := rfl
@[simp] theorem State.endOfStream_ioff (s : State) : s.endOfStream.ioff = s.ioff := rfl
@[simp] theorem State.endOfStream_phase (s : State) : s.endOfStream.phase = s.phase := rfl
@[simp] theorem State.endOfStream_latch (s : State) : s.endOfStream.latch = s.latch := rfl
@[simp] theorem State.endOfStream_err (s : State) : s.endOfStream.err = s.err := rfl
@[simp] theorem State.endOfStream_stream (s : State) : s.endOfStream.stream = s.stream := rfl
@[simp] theorem State.endOfStream_out (s : State) : s.endOfStream.out = s.out := rfl
@[simp] theorem State.endOfStream_result (s : State) : s.endOfStream.result = some .endOfStream := rfl
@[simp] theorem State.endOfStream_calls (s : State) : s.endOfStream.calls = s.calls := rfl

@[simp] theorem State.openHeader_pos (s : State) (l : Latch) : (s.openHeader l).pos = s.pos + 2 := rfl
@[simp] theorem State.openHeader_ioff (s : State) (l : Latch) : (s.openHeader l).ioff = s.pos := rfl
@[simp] theorem State.openHeader_phase (s : State) (l : Latch) : (s.openHeader l).phase = .trailing := rfl
@[simp] theorem State.openHeader_latch (s : State) (l : Latch) : (s.openHeader l).latch = some l := rfl
@[simp] theorem State.openHeader_err (s : State) (l : Latch) : (s.openHeader l).err = s.err := rfl
@[simp] theorem State.openHeader_stream (s : State) (l : Latch) : (s.openHeader l).stream = s.stream := rfl
@[simp] theorem State.openHeader_out (s : State) (l : Latch) : (s.openHeader l).out = s.out := rfl
@[simp] theorem State.openHeader_result (s : State) (l : Latch) : (s.openHeader l).result = some (.header l.ir.family l.need) := rfl
@[simp] theorem State.openHeader_calls (s : State) (l : Latch) : (s.openHeader l).calls = s.calls := rfl

@[simp] theorem State.emit_pos (s : State) (l : Latch) (r : Record) : (s.emit l r).pos = s.pos + l.need := rfl
@[simp] theorem State.emit_ioff (s : State) (l : Latch) (r : Record) : (s.emit l r).ioff = s.ioff := rfl
@[simp] theorem State.emit_phase (s : State) (l : Latch) (r : Record) : (s.emit l r).phase = .idle := rfl
@[simp] theorem State.emit_latch (s : State) (l : Latch) (r : Record) : (s.emit l r).latch = none := rfl
@[simp] theorem State.emit_err (s : State) (l : Latch) (r : Record) : (s.emit l r).err = s.err := rfl
@[simp] theorem State.emit_stream (s : State) (l : Latch) (r : Record) : (s.emit l r).stream = s.stream := rfl
@[simp] theorem State.emit_out (s : State) (l : Latch) (r : Record) : (s.emit l r).out = s.out ++ [r] := rfl
@[simp] theorem State.emit_result (s : State) (l : Latch) (r : Record) : (s.emit l r).result = some (.record r) := rfl
@[simp] theorem State.emit_calls (s : State) (l : Latch) (r : Record) : (s.emit l r).calls = s.calls := rfl

@[simp] theorem State.withFetchWord_pos (s : State) (nbits w : Nat) : (s.withFetchWord nbits w).pos = s.pos := rfl
@[simp] theorem State.withFetchWord_ioff (s : State) (nbits w : Nat) : (s.withFetchWord nbits w).ioff = s.ioff := rfl
@[simp] theorem State.withFetchWord_phase (s : State) (nbits w : Nat) : (s.withFetchWord nbits w).phase = .idle := rfl
@[simp] theorem State.withFetchWord_latch (s : State) (nbits w : Nat) : (s.withFetchWord nbits w).latch = s.latch := rfl
@[simp] theorem State.withFetchWord_err (s : State) (nbits w : Nat) : (s.withFetchWord nbits w).err = s.err := rfl
@[simp] theorem State.withFetchWord_stream (s : State) (nbits w : Nat) : (s.withFetchWord nbits w).stream = s.stream.writeBytes s.pos (tableBytes nbits w) := rfl
@[simp] theorem State.withFetchWord_out (s : State) (nbits w : Nat) : (s.withFetchWord nbits w).out = s.out := rfl
@[simp] theorem State.withFetchWord_result (s : State) (nbits w : Nat) : (s.withFetchWord nbits w).result = s.result := rfl
@[simp] theorem State.withFetchWord_calls (s : State) (nbits w : Nat) : (s.withFetchWord nbits w).calls = [] := rfl

end Sys2Proof.Machine
end

