-- ==== Sys2Proof/Laws/Ops.lean ====
section
/-! SUPPORT. What the shared operations and the transactions can do, said once. -/

namespace Sys2Proof.Machine

/-- Everything the trailing step of an instruction can do. -/
theorem closeTrailing_cases (l : Latch) (lead : List Byte) (build : List Byte → Option Finished) (s : State) :
    (s.latch ≠ some l ∧ closeTrailing l lead build s = .refused .notOpenInstruction) ∨
    (s.latch = some l ∧ (s.stream.window s.pos l.need).length < l.need ∧
      closeTrailing l lead build s = .next (s.raise .truncatedStream)) ∨
    (s.latch = some l ∧ l.need ≤ (s.stream.window s.pos l.need).length ∧
      build (lead ++ s.stream.window s.pos l.need) = none ∧
      closeTrailing l lead build s = .refused .malformedTail) ∨
    (∃ f, s.latch = some l ∧ l.need ≤ (s.stream.window s.pos l.need).length ∧
      build (lead ++ s.stream.window s.pos l.need) = some f ∧
      closeTrailing l lead build s = .next (s.emit l (f.record s l))) := by
  by_cases hl : s.latch = some l
  · by_cases hn : (s.stream.window s.pos l.need).length < l.need
    · exact .inr (.inl ⟨hl, hn, by simp [closeTrailing, hl, hn]⟩)
    · rcases hb : build (lead ++ s.stream.window s.pos l.need) with _ | f
      · exact .inr (.inr (.inl ⟨hl, Nat.le_of_not_lt hn, rfl, by simp [closeTrailing, hl, hn, hb]⟩))
      · exact .inr (.inr (.inr ⟨f, hl, Nat.le_of_not_lt hn, rfl, by simp [closeTrailing, hl, hn, hb]⟩))
  · exact .inl ⟨hl, by simp [closeTrailing, hl]⟩

@[simp] theorem transact_idle {l : Latch} {lead : List Byte} {build : List Byte → Option Finished} {s : State}
    (h : s.phase = .idle) : transact l lead build s = .next (s.openHeader l) := by
  simp [transact, h]

@[simp] theorem transact_trailing {l : Latch} {lead : List Byte} {build : List Byte → Option Finished} {s : State}
    (h : s.phase = .trailing) : transact l lead build s = closeTrailing l lead build s := by
  simp [transact, h]

@[simp] theorem transact_halted {l : Latch} {lead : List Byte} {build : List Byte → Option Finished} {s : State}
    (h : s.phase = .halted) : transact l lead build s = .refused .haltedAcceptsNothing := by
  simp [transact, h]

/-- The three ways an instruction's step reaches a next state: its header is latched, its record is emitted, or the stream
ended before its bytes did. -/
theorem transact_next {l : Latch} {lead : List Byte} {build : List Byte → Option Finished} {s t : State}
    (h : transact l lead build s = .next t) :
    (s.phase = .idle ∧ t = s.openHeader l) ∨
    (s.phase = .trailing ∧ s.latch = some l ∧ (s.stream.window s.pos l.need).length < l.need ∧
      t = s.raise .truncatedStream) ∨
    (∃ f, s.phase = .trailing ∧ s.latch = some l ∧ l.need ≤ (s.stream.window s.pos l.need).length ∧
      build (lead ++ s.stream.window s.pos l.need) = some f ∧ t = s.emit l (f.record s l)) := by
  rcases hp : s.phase with _ | _ | _
  · rw [transact_idle hp] at h
    exact .inl ⟨rfl, (Host.Outcome.next.inj h).symm⟩
  · rw [transact_trailing hp] at h
    rcases closeTrailing_cases l lead build s with ⟨_, e⟩ | ⟨hl, hn, e⟩ | ⟨_, _, _, e⟩ | ⟨f, hl, hn, hb, e⟩
    · rw [e] at h; cases h
    · rw [e] at h
      exact .inr (.inl ⟨rfl, hl, hn, (Host.Outcome.next.inj h).symm⟩)
    · rw [e] at h; cases h
    · rw [e] at h
      exact .inr (.inr ⟨f, rfl, hl, hn, hb, (Host.Outcome.next.inj h).symm⟩)
  · rw [transact_halted hp] at h; cases h

/-- The bytes the canonical caller hands over are always acceptable. -/
@[simp] theorem checkBytes_window (s : State) (n : Nat) : checkBytes s n (s.stream.window s.pos n) = none := by
  simp [checkBytes]

theorem checkBytes_none {s : State} {n : Nat} {bytes : List Byte} (h : checkBytes s n bytes = none) :
    bytes = s.stream.window s.pos n := by
  simp only [checkBytes] at h
  split at h
  · assumption
  · split at h <;> cases h

/-- Everything an accepted header transaction can do. -/
theorem header_next {chunk : List Byte} {s t : State} (h : header chunk s = .next t) :
    s.phase = .idle ∧ chunk = s.stream.window s.pos Config.headerChunk ∧
    ((decode chunk = .endOfStream ∧ t = s.endOfStream) ∨
     (∃ k, decode chunk = .error k ∧ t = s.raiseHeader k) ∨
     (∃ i rest, decode chunk = .instr i rest ∧ exec i s = .next t)) := by
  simp only [header] at h
  split at h
  · cases h
  · rename_i hp
    split at h
    · cases h
    · split at h
      · cases h
      · rename_i hc
        refine ⟨not_not.1 hp, checkBytes_none hc, ?_⟩
        split at h
        · rename_i hd; exact .inl ⟨hd, (Host.Outcome.next.inj h).symm⟩
        · rename_i k hd; exact .inr (.inl ⟨k, hd, (Host.Outcome.next.inj h).symm⟩)
        · rename_i i rest hd; exact .inr (.inr ⟨i, rest, hd, h⟩)

/-- Everything an accepted trailing transaction can do. -/
theorem trailing_next {bytes : List Byte} {s t : State} (h : trailing bytes s = .next t) :
    s.phase = .trailing ∧ ∃ l, s.latch = some l ∧ bytes = s.stream.window s.pos l.need ∧ exec l.ir s = .next t := by
  simp only [trailing] at h
  split at h
  · cases h
  · rename_i hp
    split at h
    · cases h
    · rename_i l hl
      split at h
      · cases h
      · split at h
        · cases h
        · rename_i hc
          exact ⟨not_not.1 hp, l, hl, checkBytes_none hc, h⟩

/-- The canonical caller's header transaction, in IDLE. -/
theorem header_canonical {s : State} (hp : s.phase = .idle) :
    header (s.stream.window s.pos Config.headerChunk) s =
      match decode (s.stream.window s.pos Config.headerChunk) with
      | .endOfStream => .next s.endOfStream
      | .error k => .next (s.raiseHeader k)
      | .instr i _ => exec i s := by
  have hlen : ¬ (s.stream.window s.pos Config.headerChunk).length > Config.headerChunk :=
    Nat.not_lt.2 (Memory.length_window_le _ _ _)
  cases hd : decode (s.stream.window s.pos Config.headerChunk) <;> simp [header, hp, hlen, hd]

/-- The canonical caller's trailing transaction, in TRAILING. -/
theorem trailing_canonical {s : State} {l : Latch} (hp : s.phase = .trailing) (hl : s.latch = some l) :
    trailing (s.stream.window s.pos l.need) s = exec l.ir s := by
  have hlen : ¬ (s.stream.window s.pos l.need).length > l.need :=
    Nat.not_lt.2 (Memory.length_window_le _ _ _)
  simp [trailing, hp, hl, hlen]

end Sys2Proof.Machine
end

