-- ==== Sys2Proof/Laws/Exec.lean ====
section
/-! SUPPORT. Every meaning is `transact` on the registers, the lead byte and the trailing step of its instruction: the one
lemma that unfolds the dispatch. -/

namespace Sys2Proof

/-- The byte of the tail that the header chunk already holds (43_resolver.md R88). -/
def Instr.lead (i : Instr) : List Byte := i.b1.toList

/-- The trailing step of an instruction on its tail. -/
def Instr.finish (i : Instr) : List Byte → Option Machine.Finished :=
  match i with
  | .movRmReg d w mode reg rm | .addRmReg d w mode reg rm | .sbbRmReg d w mode reg rm
  | .subRmReg d w mode reg rm | .cmpRmReg d w mode reg rm => Machine.finishRmReg d w mode reg rm
  | .movRmImm w mode _ rm => Machine.finishRmImm false w mode rm (dispCount mode rm)
  | .addRmImm sx w mode rm | .sbbRmImm sx w mode rm | .subRmImm sx w mode rm | .cmpRmImm sx w mode rm =>
    Machine.finishRmImm sx w mode rm (dispCount mode rm)
  | .movRegImm w reg _ => Machine.finishRegImm w reg
  | .movAccAddr w _ => Machine.finishAccAddr w
  | .movAddrAcc w _ => Machine.finishAddrAcc w
  | .addAccImm w _ | .sbbAccImm w _ | .subAccImm w _ | .cmpAccImm w _ => Machine.finishAccImm w

namespace Machine

theorem exec_eq_transact (i : Instr) (s : State) : exec i s = transact i.latched i.lead i.finish s := by
  cases i <;> simp [exec, execMovRmReg, execMovRmImm, execMovRegImm, execMovAccAddr, execMovAddrAcc,
    execAddRmReg, execAddRmImm, execAddAccImm, execSbbRmReg, execSbbRmImm, execSbbAccImm,
    execSubRmReg, execSubRmImm, execSubAccImm, execCmpRmReg, execCmpRmImm, execCmpAccImm,
    Instr.latched, Instr.ndisp, Instr.nimm, Instr.need, Instr.form, Instr.lead, Instr.b1] <;> rfl

/-- What a finished trailing step leaves: data of the instruction's shape, the operands of its form, and no byte lost. -/
def Finished.sound (f : Finished) (i : Instr) (bytes : List Byte) : Prop :=
  i.fits f.data = true ∧ i.operands f.data = some (f.dst, f.src) ∧ encodeTrailing i f.data = bytes

theorem finishRmReg_spec {d : Bool} {w : Width} {mode : Mode} {reg rm : U3} {bytes : List Byte}
    (h : bytes.length = dispCount mode rm) :
    ∃ f disp, finishRmReg d w mode reg rm bytes = some f ∧ f.data = .rmReg disp ∧ dispFits mode rm disp = true ∧
      (rmOperand mode w rm disp).map (orderByDirection d (.reg w reg)) = some (f.dst, f.src) ∧
      dispBytes mode disp = bytes := by
  obtain ⟨op, hop⟩ := rmOperand_isSome mode w rm h
  exact ⟨⟨.rmReg (dispValue bytes), (orderByDirection d (.reg w reg) op).1, (orderByDirection d (.reg w reg) op).2⟩,
    dispValue bytes, by simp only [finishRmReg, hop], rfl, (dispValue_spec mode rm h).1, by rw [hop]; rfl,
    (dispValue_spec mode rm h).2⟩

theorem finishRmImm_spec {s : Bool} {w : Width} {mode : Mode} {rm : U3} {bytes : List Byte}
    (h : bytes.length = dispCount mode rm + immCountSigned s w) :
    ∃ f disp imm, finishRmImm s w mode rm (dispCount mode rm) bytes = some f ∧ f.data = .immRm disp imm ∧
      (dispFits mode rm disp && immFits s w imm) = true ∧
      (rmOperand mode w rm disp).map (fun rmop => (rmop, Operand.imm imm)) = some (f.dst, f.src) ∧
      dispBytes mode disp ++ immBytes s imm = bytes := by
  have hd : (bytes.take (dispCount mode rm)).length = dispCount mode rm := by rw [List.length_take]; omega
  have hi : (bytes.drop (dispCount mode rm)).length = immCountSigned s w := by rw [List.length_drop]; omega
  obtain ⟨op, hop⟩ := rmOperand_isSome mode w rm hd
  obtain ⟨imm, himm⟩ := immValue_isSome s w hi
  have hs := immValue_spec himm
  refine ⟨⟨.immRm (dispValue (bytes.take (dispCount mode rm))) imm, op, .imm imm⟩,
    dispValue (bytes.take (dispCount mode rm)), imm, by simp only [finishRmImm, hop, himm], rfl, ?_,
    by rw [hop]; rfl, ?_⟩
  · rw [(dispValue_spec mode rm hd).1, hs.1]; rfl
  · rw [(dispValue_spec mode rm hd).2, hs.2, List.take_append_drop]

/-- An immediate whose low byte is in the header chunk. -/
theorem immHeader_spec {w : Width} {b1 : Byte} {bytes : List Byte} (h : bytes.length = immCount w - 1) :
    ∃ imm, immValue w false (b1 :: bytes) = some imm ∧ immFitsHeader w b1 imm = true ∧
      (immBytes false imm).drop 1 = bytes := by
  cases w with
  | byte =>
    rw [List.eq_nil_of_length_eq_zero h]
    exact ⟨.byte b1, rfl, by simp [immFitsHeader], rfl⟩
  | word =>
    match bytes, h with
    | [hi], _ => exact ⟨.word (le16 b1 hi), rfl, by simp [immFitsHeader], by simp [immBytes, leBytes_le16]⟩

/-- Every instruction finishes on the `need` bytes it asked for, soundly. -/
theorem finish_spec (i : Instr) {bytes : List Byte} (h : bytes.length = i.need) :
    ∃ f, i.finish (i.lead ++ bytes) = some f ∧ f.sound i bytes := by
  cases i with
  | movRmReg d w mode reg rm | addRmReg d w mode reg rm | sbbRmReg d w mode reg rm
  | subRmReg d w mode reg rm | cmpRmReg d w mode reg rm =>
    obtain ⟨f, disp, hf, hdata, hfit, hops, henc⟩ := finishRmReg_spec (d := d) (w := w) (reg := reg)
      (show bytes.length = dispCount mode rm from h)
    refine ⟨f, hf, ?_⟩
    rw [Finished.sound, hdata]
    exact ⟨hfit, hops, henc⟩
  | movRmImm w mode reg rm =>
    obtain ⟨f, disp, imm, hf, hdata, hfit, hops, henc⟩ := finishRmImm_spec (s := false)
      (show bytes.length = dispCount mode rm + immCountSigned false w from h)
    refine ⟨f, hf, ?_⟩
    rw [Finished.sound, hdata]
    exact ⟨hfit, hops, henc⟩
  | addRmImm sx w mode rm | sbbRmImm sx w mode rm | subRmImm sx w mode rm | cmpRmImm sx w mode rm =>
    obtain ⟨f, disp, imm, hf, hdata, hfit, hops, henc⟩ := finishRmImm_spec
      (show bytes.length = dispCount mode rm + immCountSigned sx w from h)
    refine ⟨f, hf, ?_⟩
    rw [Finished.sound, hdata]
    exact ⟨hfit, hops, henc⟩
  | movRegImm w reg b1 =>
    obtain ⟨imm, hv, hfit, henc⟩ := immHeader_spec (b1 := b1)
      (show bytes.length = immCount w - 1 by simpa [Instr.need, Instr.form, Instr.ndisp, Instr.nimm] using h)
    exact ⟨⟨.immReg imm, .reg w reg, .imm imm⟩, by simp [Instr.finish, Instr.lead, Instr.b1, finishRegImm, hv],
      hfit, rfl, henc⟩
  | movAccAddr w b1 =>
    match bytes, h with
    | [hi], _ =>
      exact ⟨⟨.accMem (le16 b1 hi), accumulator w, .direct (le16 b1 hi)⟩, rfl, by simp [Instr.fits], rfl,
        by simp [encodeTrailing, leBytes_le16]⟩
  | movAddrAcc w b1 =>
    match bytes, h with
    | [hi], _ =>
      exact ⟨⟨.accMem (le16 b1 hi), .direct (le16 b1 hi), accumulator w⟩, rfl, by simp [Instr.fits], rfl,
        by simp [encodeTrailing, leBytes_le16]⟩
  | addAccImm w b1 | sbbAccImm w b1 | subAccImm w b1 | cmpAccImm w b1 =>
    obtain ⟨imm, hv, hfit, henc⟩ := immHeader_spec (b1 := b1)
      (show bytes.length = immCount w - 1 by simpa [Instr.need, Instr.form, Instr.ndisp, Instr.nimm] using h)
    exact ⟨⟨.immAcc imm, accumulator w, .imm imm⟩, by simp [Instr.finish, Instr.lead, Instr.b1, finishAccImm, hv],
      hfit, rfl, henc⟩

end Machine

end Sys2Proof
end

