-- ==== Sys2Proof/Laws/PerInstr.lean ====
section
/-! SUPPORT. Facts of every instruction, one lemma per constructor. -/

namespace Sys2Proof.Laws.LengthRange

/-- An instruction is 2 to 6 bytes long (30_encoding.md R46): the header chunk and at most four bytes after it. -/
def Statement (i : Instr) : Prop :=
  (encode i).length = Config.lenMin ∧ i.need ≤ Config.needMax ∧ i.ndisp ≤ 2 ∧ i.nimm ≤ 2

theorem dispCount_le (mode : Mode) (rm : U3) : dispCount mode rm ≤ 2 := by
  cases mode <;> simp [dispCount]
  split <;> omega

theorem immCount_le (w : Width) : immCount w ≤ 2 := by cases w <;> simp [immCount]

theorem immCountSigned_le (s : Bool) (w : Width) : immCountSigned s w ≤ 2 := by
  cases s <;> cases w <;> simp [immCountSigned, immCount]

theorem movRmReg (d : Bool) (w : Width) (mode : Mode) (reg rm : U3) : Statement (.movRmReg d w mode reg rm) := by
  have := dispCount_le mode rm
  simp [Statement, encode, Config.lenMin, Config.needMax, Instr.need, Instr.form, Instr.ndisp, Instr.nimm]; omega

theorem movRmImm (w : Width) (mode : Mode) (reg rm : U3) : Statement (.movRmImm w mode reg rm) := by
  have := dispCount_le mode rm
  have := immCount_le w
  simp [Statement, encode, Config.lenMin, Config.needMax, Instr.need, Instr.form, Instr.ndisp, Instr.nimm]; omega

theorem movRegImm (w : Width) (reg : U3) (b1 : Byte) : Statement (.movRegImm w reg b1) := by
  have := immCount_le w
  simp [Statement, encode, Config.lenMin, Config.needMax, Instr.need, Instr.form, Instr.ndisp, Instr.nimm]; omega

theorem movAccAddr (w : Width) (b1 : Byte) : Statement (.movAccAddr w b1) := by
  simp [Statement, encode, Config.lenMin, Config.needMax, Instr.need, Instr.form, Instr.ndisp, Instr.nimm]

theorem movAddrAcc (w : Width) (b1 : Byte) : Statement (.movAddrAcc w b1) := by
  simp [Statement, encode, Config.lenMin, Config.needMax, Instr.need, Instr.form, Instr.ndisp, Instr.nimm]

theorem addRmReg (d : Bool) (w : Width) (mode : Mode) (reg rm : U3) : Statement (.addRmReg d w mode reg rm) := by
  have := dispCount_le mode rm
  simp [Statement, encode, Config.lenMin, Config.needMax, Instr.need, Instr.form, Instr.ndisp, Instr.nimm]; omega

theorem addRmImm (s : Bool) (w : Width) (mode : Mode) (rm : U3) : Statement (.addRmImm s w mode rm) := by
  have := dispCount_le mode rm
  have := immCountSigned_le s w
  simp [Statement, encode, Config.lenMin, Config.needMax, Instr.need, Instr.form, Instr.ndisp, Instr.nimm]; omega

theorem addAccImm (w : Width) (b1 : Byte) : Statement (.addAccImm w b1) := by
  have := immCount_le w
  simp [Statement, encode, Config.lenMin, Config.needMax, Instr.need, Instr.form, Instr.ndisp, Instr.nimm]; omega

theorem sbbRmReg (d : Bool) (w : Width) (mode : Mode) (reg rm : U3) : Statement (.sbbRmReg d w mode reg rm) := by
  have := dispCount_le mode rm
  simp [Statement, encode, Config.lenMin, Config.needMax, Instr.need, Instr.form, Instr.ndisp, Instr.nimm]; omega

theorem sbbRmImm (s : Bool) (w : Width) (mode : Mode) (rm : U3) : Statement (.sbbRmImm s w mode rm) := by
  have := dispCount_le mode rm
  have := immCountSigned_le s w
  simp [Statement, encode, Config.lenMin, Config.needMax, Instr.need, Instr.form, Instr.ndisp, Instr.nimm]; omega

theorem sbbAccImm (w : Width) (b1 : Byte) : Statement (.sbbAccImm w b1) := by
  have := immCount_le w
  simp [Statement, encode, Config.lenMin, Config.needMax, Instr.need, Instr.form, Instr.ndisp, Instr.nimm]; omega

theorem subRmReg (d : Bool) (w : Width) (mode : Mode) (reg rm : U3) : Statement (.subRmReg d w mode reg rm) := by
  have := dispCount_le mode rm
  simp [Statement, encode, Config.lenMin, Config.needMax, Instr.need, Instr.form, Instr.ndisp, Instr.nimm]; omega

theorem subRmImm (s : Bool) (w : Width) (mode : Mode) (rm : U3) : Statement (.subRmImm s w mode rm) := by
  have := dispCount_le mode rm
  have := immCountSigned_le s w
  simp [Statement, encode, Config.lenMin, Config.needMax, Instr.need, Instr.form, Instr.ndisp, Instr.nimm]; omega

theorem subAccImm (w : Width) (b1 : Byte) : Statement (.subAccImm w b1) := by
  have := immCount_le w
  simp [Statement, encode, Config.lenMin, Config.needMax, Instr.need, Instr.form, Instr.ndisp, Instr.nimm]; omega

theorem cmpRmReg (d : Bool) (w : Width) (mode : Mode) (reg rm : U3) : Statement (.cmpRmReg d w mode reg rm) := by
  have := dispCount_le mode rm
  simp [Statement, encode, Config.lenMin, Config.needMax, Instr.need, Instr.form, Instr.ndisp, Instr.nimm]; omega

theorem cmpRmImm (s : Bool) (w : Width) (mode : Mode) (rm : U3) : Statement (.cmpRmImm s w mode rm) := by
  have := dispCount_le mode rm
  have := immCountSigned_le s w
  simp [Statement, encode, Config.lenMin, Config.needMax, Instr.need, Instr.form, Instr.ndisp, Instr.nimm]; omega

theorem cmpAccImm (w : Width) (b1 : Byte) : Statement (.cmpAccImm w b1) := by
  have := immCount_le w
  simp [Statement, encode, Config.lenMin, Config.needMax, Instr.need, Instr.form, Instr.ndisp, Instr.nimm]; omega

end Sys2Proof.Laws.LengthRange
end

