-- ==== Sys2Proof/Laws/Step.lean ====
section
/-! SUPPORT. Everything one step can do, said once: invariants of the machine are case analyses on `step_next`. -/

namespace Sys2Proof.Machine

theorem exec_idle (i : Instr) {s : State} (h : s.phase = .idle) : exec i s = .next (s.openHeader i.latched) := by
  rw [exec_eq_transact, transact_idle h]

theorem exec_next {i : Instr} {s t : State} (h : exec i s = .next t) :
    (s.phase = .idle ∧ t = s.openHeader i.latched) ∨
    (s.phase = .trailing ∧ s.latch = some i.latched ∧ (s.stream.window s.pos i.need).length < i.need ∧
      t = s.raise .truncatedStream) ∨
    (∃ f, s.phase = .trailing ∧ s.latch = some i.latched ∧ i.need ≤ (s.stream.window s.pos i.need).length ∧
      i.finish (i.lead ++ s.stream.window s.pos i.need) = some f ∧
      t = s.emit i.latched (f.record s i.latched)) := by
  rw [exec_eq_transact] at h
  exact transact_next h

theorem step_call {s : State} {c : Call} {cs : List Call} (h : s.calls = c :: cs) :
    step s = serve c { s with calls := cs } := by
  simp [step, stepOnce, h]

theorem step_idle {s : State} (hc : s.calls = []) (hp : s.phase = .idle) :
    step s = header (s.stream.window s.pos Config.headerChunk) s := by
  simp [step, stepOnce, hc, canonicalCall, hp, serve]

theorem step_trailing {s : State} {l : Latch} (hc : s.calls = []) (hp : s.phase = .trailing) (hl : s.latch = some l) :
    step s = exec l.ir s := by
  simp only [step, stepOnce, hc, canonicalCall, hp, hl, Option.map_some, Option.getD_some, serve]
  exact trailing_canonical hp hl

theorem step_halted {s : State} (hc : s.calls = []) (hp : s.phase = .halted) : step s = .fault .halted := by
  simp [step, stepOnce, hc, canonicalCall, hp]

/-- A step that reaches a next state is one transaction on the state without the call it served: reset, the start of a
run, or an accepted header or trailing transaction on the stream's own bytes. -/
theorem step_next {s t : State} (h : step s = .next t) :
    ∃ u : State, (∃ cs, u = { s with calls := cs }) ∧
    (((∃ cs, s.calls = .reset :: cs) ∧ t = u.resetDfe) ∨
     (∃ bs, (∃ cs, s.calls = .newRun bs :: cs) ∧ t = u.newRun bs) ∨
     (header (u.stream.window u.pos Config.headerChunk) u = .next t) ∨
     (∃ l, u.latch = some l ∧ trailing (u.stream.window u.pos l.need) u = .next t)) := by
  rcases hc : s.calls with _ | ⟨c, cs⟩
  · refine ⟨s, ⟨[], by rw [← hc]⟩, ?_⟩
    rcases hp : s.phase with _ | _ | _
    · rw [step_idle hc hp] at h
      exact .inr (.inr (.inl h))
    · rcases hl : s.latch with _ | l
      · simp [step, stepOnce, hc, canonicalCall, hp, hl, serve, trailing] at h
      · rw [step_trailing hc hp hl] at h
        exact .inr (.inr (.inr ⟨l, rfl, by rw [trailing_canonical hp hl]; exact h⟩))
    · rw [step_halted hc hp] at h; cases h
  · rw [step_call hc] at h
    refine ⟨{ s with calls := cs }, ⟨cs, rfl⟩, ?_⟩
    cases c with
    | reset => exact .inl ⟨⟨cs, rfl⟩, (Host.Outcome.next.inj h).symm⟩
    | newRun bs => exact .inr (.inl ⟨bs, ⟨cs, rfl⟩, (Host.Outcome.next.inj h).symm⟩)
    | header chunk =>
      have hb := (header_next (show header chunk _ = _ from h)).2.1
      exact .inr (.inr (.inl (by rw [← hb]; exact h)))
    | trailing bytes =>
      obtain ⟨_, l, hl, hb, _⟩ := trailing_next (show trailing bytes _ = _ from h)
      exact .inr (.inr (.inr ⟨l, hl, by rw [← hb]; exact h⟩))

end Sys2Proof.Machine
end

