-- ==== Sys2Proof/Laws/Stream.lean ====
section
/-! SUPPORT. The run of DFE on a stream, said once as a relation: claims about whole runs are inductions on `Run`. -/

namespace Sys2Proof.Machine

/-- The run of DFE on `bytes` from the instruction boundary `a` on: the records it hands over, the error it ends with, and
the phase and position it ends in (45_sequencer.md R114, R115). -/
inductive Run (bytes : List Byte) : Nat → List Record → Option ErrorReg → Phase → Nat → Prop where
  | done (a : Nat) (h : decode ((bytes.drop a).take 2) = .endOfStream) : Run bytes a [] none .idle a
  | header (a : Nat) (k : ErrorKind) (h : decode ((bytes.drop a).take 2) = .error k) :
    Run bytes a [] (some ⟨k, a⟩) .halted a
  | short (a : Nat) (i : Instr) (rest : List Byte) (h : decode ((bytes.drop a).take 2) = .instr i rest)
    (hn : ((bytes.drop (a + 2)).take i.need).length < i.need) :
    Run bytes a [] (some ⟨.truncatedStream, a⟩) .halted (a + 2)
  | more (a : Nat) (i : Instr) (rest : List Byte) (f : Finished) (rs : List Record) (e : Option ErrorReg) (p : Phase)
    (z : Nat) (h : decode ((bytes.drop a).take 2) = .instr i rest)
    (hn : ((bytes.drop (a + 2)).take i.need).length = i.need)
    (hf : i.finish (i.lead ++ (bytes.drop (a + 2)).take i.need) = some f)
    (hs : f.sound i ((bytes.drop (a + 2)).take i.need)) (tail : Run bytes (a + 2 + i.need) rs e p z) :
    Run bytes a (⟨i, a, 2 + i.need, f.data, f.dst, f.src⟩ :: rs) e p z

theorem exec_short {i : Instr} {s : State} (hp : s.phase = .trailing) (hl : s.latch = some i.latched)
    (h : (s.stream.window s.pos i.need).length < i.need) : exec i s = .next (s.raise .truncatedStream) := by
  have h' : (s.stream.window s.pos i.latched.need).length < i.latched.need := h
  rw [exec_eq_transact, transact_trailing hp]
  simp only [closeTrailing, hl, if_true, h']

theorem exec_full {i : Instr} {s : State} {f : Finished} (hp : s.phase = .trailing) (hl : s.latch = some i.latched)
    (h : (s.stream.window s.pos i.need).length = i.need)
    (hf : i.finish (i.lead ++ s.stream.window s.pos i.need) = some f) :
    exec i s = .next (s.emit i.latched (f.record s i.latched)) := by
  have h' : ¬ (s.stream.window s.pos i.latched.need).length < i.latched.need := by
    rw [show i.latched.need = i.need from rfl, h]
    exact Nat.lt_irrefl _
  have hf' : i.finish (i.lead ++ s.stream.window s.pos i.latched.need) = some f := hf
  rw [exec_eq_transact, transact_trailing hp]
  simp only [closeTrailing, hl, if_true, h', if_false, hf']

theorem runToEnd_succ {fuel : Nat} {s t : State} (h : step s = .next t) :
    runToEnd (fuel + 1) s = if t.ended then some t else runToEnd fuel t := by
  simp only [runToEnd, h]

/-- From an instruction boundary, with a step more than there are bytes left, the run ends, and it is the one `Run` says. -/
theorem runToEnd_spec (bytes : List Byte) (n : Nat) : ∀ (fuel : Nat) (s : State), s.stream = Memory.ofBytes bytes →
    s.calls = [] → s.phase = .idle → s.err = none → bytes.length - s.pos ≤ n → n < fuel →
    ∃ t rs, runToEnd fuel s = some t ∧ t.stream = s.stream ∧ t.out = s.out ++ rs ∧
      Run bytes s.pos rs t.err t.phase t.pos := by
  induction n using Nat.strongRecOn with
  | ind n ih =>
    intro fuel s hst hc hp he hn hfuel
    obtain ⟨fuel, rfl⟩ : ∃ k, fuel = k + 1 := ⟨fuel - 1, by omega⟩
    have hw : s.stream.window s.pos Config.headerChunk = (bytes.drop s.pos).take 2 := by
      rw [hst]; exact Memory.window_ofBytes bytes s.pos 2
    have hstep := (step_idle hc hp).trans (header_canonical hp)
    rcases hd : decode (s.stream.window s.pos Config.headerChunk) with ⟨i, rest⟩ | _ | k
    · simp only [hd] at hstep
      rw [exec_idle i hp] at hstep
      rw [hw] at hd
      have hlen : s.pos + 2 ≤ bytes.length := by
        obtain ⟨_, _, _, hb, _⟩ := decode_instr hd
        have := congrArg List.length hb
        simp only [List.length_take, List.length_drop, List.length_cons] at this
        omega
      obtain ⟨fuel, rfl⟩ : ∃ k, fuel = k + 1 := ⟨fuel - 1, by omega⟩
      rw [runToEnd_succ hstep, if_neg (by simp [State.ended])]
      have hw2 : (s.openHeader i.latched).stream.window (s.openHeader i.latched).pos i.need =
          (bytes.drop (s.pos + 2)).take i.need := by
        rw [State.openHeader_stream, hst]; exact Memory.window_ofBytes bytes _ _
      have hstep2 := step_trailing (s := s.openHeader i.latched) (l := i.latched) hc rfl rfl
      by_cases hshort : ((bytes.drop (s.pos + 2)).take i.need).length < i.need
      · rw [show i.latched.ir = i from rfl, exec_short rfl rfl (by rw [hw2]; exact hshort)] at hstep2
        rw [runToEnd_succ hstep2, if_pos (by simp [State.ended])]
        exact ⟨_, [], rfl, rfl, by simp, .short s.pos i rest hd hshort⟩
      · have hfull : ((bytes.drop (s.pos + 2)).take i.need).length = i.need :=
          Nat.le_antisymm (List.length_take_le _ _) (Nat.le_of_not_lt hshort)
        obtain ⟨f, hf, hs⟩ := finish_spec i hfull
        rw [show i.latched.ir = i from rfl,
          exec_full rfl rfl (by rw [hw2]; exact hfull) (by rw [hw2]; exact hf)] at hstep2
        rw [runToEnd_succ hstep2, if_neg (by simp [State.ended])]
        obtain ⟨t, rs, hr, hts, hto, hrun⟩ := ih (n - 2) (by omega) fuel
          ((s.openHeader i.latched).emit i.latched (f.record (s.openHeader i.latched) i.latched))
          hst hc rfl he (by
            show bytes.length - (s.pos + 2 + i.need) ≤ n - 2
            omega) (by omega)
        exact ⟨t, _, hr, hts, by rw [hto, State.emit_out, List.append_assoc]; rfl,
          .more s.pos i rest f rs _ _ _ hd hfull hf hs hrun⟩
    · simp only [hd] at hstep
      rw [runToEnd_succ hstep, if_pos (by simp [State.ended])]
      refine ⟨_, [], rfl, rfl, by simp, ?_⟩
      rw [State.endOfStream_err, State.endOfStream_phase, State.endOfStream_pos, he, hp]
      exact .done s.pos (by rw [← hw]; exact hd)
    · simp only [hd] at hstep
      rw [runToEnd_succ hstep, if_pos (by simp [State.ended])]
      exact ⟨_, [], rfl, rfl, by simp, .header s.pos k (by rw [← hw]; exact hd)⟩

theorem runStream_spec (bytes : List Byte) : ∃ t, runStream bytes = some t ∧ t.stream = Memory.ofBytes bytes ∧
    Run bytes 0 t.out t.err t.phase t.pos := by
  obtain ⟨t, rs, hr, hs, ho, hrun⟩ := runToEnd_spec bytes bytes.length (bytes.length + 1) (State.reset.newRun bytes)
    rfl rfl rfl rfl (Nat.sub_le _ _) (Nat.lt_succ_self _)
  obtain rfl : t.out = rs := by simpa using ho
  exact ⟨t, hr, hs, hrun⟩

/-- `decode_stream` answers what the run hands over. -/
theorem decodeStream_run {bytes : List Byte} {rs : List Record} {e : Option ErrorReg}
    (h : decodeStream bytes = some (rs, e)) : ∃ p z, Run bytes 0 rs e p z := by
  obtain ⟨t, ht, _, hrun⟩ := runStream_spec bytes
  simp only [decodeStream, ht, Option.map_some, Option.some.injEq, Prod.mk.injEq] at h
  obtain ⟨rfl, rfl⟩ := h
  exact ⟨_, _, hrun⟩

/-- A stream has one run. -/
theorem Run.unique {bytes : List Byte} {a : Nat} {rs rs' : List Record} {e e' : Option ErrorReg} {p p' : Phase}
    {z z' : Nat} (h : Run bytes a rs e p z) (h' : Run bytes a rs' e' p' z') : rs = rs' ∧ e = e' ∧ p = p' ∧ z = z' := by
  induction h generalizing rs' e' p' z' with
  | done a h => cases h' <;> simp_all
  | header a k h => cases h' <;> simp_all
  | short a i rest h hn =>
    cases h' with
    | done _ h2 => simp [h] at h2
    | header _ _ h2 => simp [h] at h2
    | short _ _ _ h2 => simp
    | more _ i2 _ _ _ _ _ _ h2 hn2 =>
      rw [h] at h2; cases h2
      exact absurd hn2 (Nat.ne_of_lt hn)
  | more a i rest f rs e p z h hn hf hs tail ih =>
    cases h' with
    | done _ h2 => simp [h] at h2
    | header _ _ h2 => simp [h] at h2
    | short _ i2 _ h2 hn2 =>
      rw [h] at h2; cases h2
      exact absurd hn (Nat.ne_of_lt hn2)
    | more _ i2 _ f2 rs2 _ _ _ h2 hn2 hf2 hs2 tail2 =>
      rw [h] at h2; cases h2
      rw [hf] at hf2; cases hf2
      obtain ⟨rfl, rfl, rfl, rfl⟩ := ih tail2
      exact ⟨rfl, rfl, rfl, rfl⟩

/-- `decode_stream` answers the run of the stream. -/
theorem Run.decodeStream {bytes : List Byte} {rs : List Record} {e : Option ErrorReg} {p : Phase} {z : Nat}
    (h : Run bytes 0 rs e p z) : decodeStream bytes = some (rs, e) := by
  obtain ⟨t, ht, _, hrun⟩ := runStream_spec bytes
  obtain ⟨rfl, rfl, _, _⟩ := h.unique hrun
  simp [Machine.decodeStream, ht]

end Sys2Proof.Machine
end

