-- ==== Sys2Proof/Tests/Slice0.lean ====
section
/-! SUPPORT. The model's own tests. Expected values are the spec's: the encodings of 30_encoding.md R44 and the vectors of
95_test_vectors.md, whose worked examples S1 to S3 are the source's. The `witness_` theorems show for each statement with
hypotheses that something meets them, clause by clause. -/

namespace Sys2Proof.Tests

open Sys2Proof Sys2Proof.Machine

/-! Helpers. -/

/-- A run of which the header of `i`, the first instruction of the stream, has been accepted. -/
def opened (i : Instr) (bytes : List Byte) : State :=
  { State.reset.newRun bytes with pos := 2, phase := .trailing, latch := some i.latched }

/-- A halted run. -/
def stopped (k : ErrorKind) (bytes : List Byte) : State := (State.reset.newRun bytes).raise k

def next? (o : Host.Outcome State Fault Refusal) : Option State :=
  match o with
  | .next t => some t
  | .fault _ | .refused _ => none

def refusal? (o : Host.Outcome State Fault Refusal) : Option Refusal :=
  match o with
  | .refused r => some r
  | .next _ | .fault _ => none

/-- What an accepted header leaves: the family the caller is told, `ndisp`, `nimm` and `need`. -/
def headerOf (o : Host.Outcome State Fault Refusal) : Option (Family × Nat × Nat × Nat) :=
  match next? o with
  | some t =>
    match t.result, t.latch with
    | some (.header f _), some l => some (f, l.ndisp, l.nimm, l.need)
    | _, _ => none
  | none => none

/-- The length and the text of the record a step handed over. -/
def recordOf (o : Host.Outcome State Fault Refusal) : Option (Nat × String) :=
  match (next? o).bind State.result with
  | some (.record r) => some (r.len, render r)
  | _ => none

/-- The error register and `pos` after a step. -/
def errorOf (o : Host.Outcome State Fault Refusal) : Option (ErrorReg × Nat) :=
  (next? o).bind fun t => t.err.map fun e => (e, t.pos)

/-! WellFormed: an ill-formed term for each check. -/

theorem test_strictRefusesMovRegField : (Instr.movRmImm .byte .register 1 0).wellFormed true = false := by decide
theorem test_strictRefusesSignedByte : (Instr.addRmImm true .byte .register 3).wellFormed true = false := by decide
theorem test_dfeAcceptsReserved : (Instr.movRmImm .byte .register 1 0).wellFormed Config.strictReserved = true ∧
    (Instr.addRmImm true .byte .register 3).wellFormed Config.strictReserved = true := by decide
theorem test_fitsRefusesMissingAddress : (Instr.movRmReg true .word .memNoDisp 3 6).fits (.rmReg none) = false := by decide
theorem test_fitsRefusesDispInMode00 : (Instr.movRmReg true .word .memNoDisp 3 5).fits (.rmReg (some 0)) = false := by
  decide
theorem test_fitsRefusesDispInMode11 : (Instr.subRmReg true .word .register 3 6).fits (.rmReg (some 0)) = false := by
  decide
theorem test_fitsRefusesWideByteDisp : (Instr.movRmReg true .word .memByteDisp 3 6).fits (.rmReg (some 128)) = false := by
  decide
theorem test_fitsRefusesWrongWidthImm : (Instr.movRmImm .byte .register 0 4).fits (.immRm none (.word 1)) = false := by
  decide
theorem test_fitsRefusesWideSignedImm : (Instr.addRmImm true .word .register 6).fits (.immRm none (.word 256)) = false := by
  decide
theorem test_fitsRefusesOtherLowByte : (Instr.movRegImm .word 1 0x0C).fits (.immReg (.word 13)) = false := by decide
theorem test_fitsRefusesOtherAddress : (Instr.movAccAddr .word 0xFB).fits (.accMem 0) = false := by decide
theorem test_fitsRefusesOtherForm : (Instr.addAccImm .byte 9).fits (.immReg (.byte 9)) = false := by decide

/-! Each instruction: its header decoded from bits written out from R44, its header step from reset, its trailing step. -/

theorem test_decodeMovRmReg : decode [0b10001011, 0b01001010] = .instr (.movRmReg true .word .memByteDisp 1 2) [] := by decide

theorem test_headerMovRmReg : headerOf (step (State.reset.newRun [0x8B, 0x4A, 0xFE])) =
    some (.movRmReg, 1, 0, 1) := by decide

theorem test_trailingMovRmReg : recordOf (step (opened (.movRmReg true .word .memByteDisp 1 2) [0x8B, 0x4A, 0xFE])) =
    some (3, "mov cx, [bp+si + -2]") := by decide

theorem test_decodeMovRmImm : decode [0b11000111, 0b10000101] = .instr (.movRmImm .word .memWordDisp 0 5) [] := by decide

theorem test_headerMovRmImm : headerOf (step (State.reset.newRun [0xC7, 0x85, 0x4C, 0x03, 0x5B, 0x01])) =
    some (.movImmRm, 2, 2, 4) := by decide

theorem test_trailingMovRmImm : recordOf (step (opened (.movRmImm .word .memWordDisp 0 5) [0xC7, 0x85, 0x4C, 0x03, 0x5B, 0x01])) =
    some (6, "mov word [di + 844], 347") := by decide

theorem test_decodeMovRegImm : decode [0b10111111, 0b00110100] = .instr (.movRegImm .word 7 0x34) [] := by decide

theorem test_headerMovRegImm : headerOf (step (State.reset.newRun [0xBF, 0x34, 0xF2])) =
    some (.movImmReg, 0, 2, 1) := by decide

theorem test_trailingMovRegImm : recordOf (step (opened (.movRegImm .word 7 0x34) [0xBF, 0x34, 0xF2])) =
    some (3, "mov di, 62004") := by decide

theorem test_decodeMovAccAddr : decode [0b10100000, 0b11111111] = .instr (.movAccAddr .byte 0xFF) [] := by decide

theorem test_headerMovAccAddr : headerOf (step (State.reset.newRun [0xA0, 0xFF, 0xFF])) =
    some (.movAccMem, 2, 0, 1) := by decide

theorem test_trailingMovAccAddr : recordOf (step (opened (.movAccAddr .byte 0xFF) [0xA0, 0xFF, 0xFF])) =
    some (3, "mov al, [65535]") := by decide

theorem test_decodeMovAddrAcc : decode [0b10100011, 0b00000000] = .instr (.movAddrAcc .word 0x00) [] := by decide

theorem test_headerMovAddrAcc : headerOf (step (State.reset.newRun [0xA3, 0x00, 0x80])) =
    some (.movAccMem, 2, 0, 1) := by decide

theorem test_trailingMovAddrAcc : recordOf (step (opened (.movAddrAcc .word 0x00) [0xA3, 0x00, 0x80])) =
    some (3, "mov [32768], ax") := by decide

theorem test_decodeAddRmReg : decode [0b00000011, 0b01011110] = .instr (.addRmReg true .word .memByteDisp 3 6) [] := by decide

theorem test_headerAddRmReg : headerOf (step (State.reset.newRun [0x03, 0x5E, 0x00])) =
    some (.arith, 1, 0, 1) := by decide

theorem test_trailingAddRmReg : recordOf (step (opened (.addRmReg true .word .memByteDisp 3 6) [0x03, 0x5E, 0x00])) =
    some (3, "add bx, [bp + 0]") := by decide

theorem test_decodeAddRmImm : decode [0b10000011, 0b01000110] = .instr (.addRmImm true .word .memByteDisp 6) [] := by decide

theorem test_headerAddRmImm : headerOf (step (State.reset.newRun [0x83, 0x46, 0x7F, 0x80])) =
    some (.arith, 1, 1, 2) := by decide

theorem test_trailingAddRmImm : recordOf (step (opened (.addRmImm true .word .memByteDisp 6) [0x83, 0x46, 0x7F, 0x80])) =
    some (4, "add word [bp + 127], 65408") := by decide

theorem test_decodeAddAccImm : decode [0b00000101, 0b11101000] = .instr (.addAccImm .word 0xE8) [] := by decide

theorem test_headerAddAccImm : headerOf (step (State.reset.newRun [0x05, 0xE8, 0x03])) =
    some (.arith, 0, 2, 1) := by decide

theorem test_trailingAddAccImm : recordOf (step (opened (.addAccImm .word 0xE8) [0x05, 0xE8, 0x03])) =
    some (3, "add ax, 1000") := by decide

theorem test_decodeSbbRmReg : decode [0b00011010, 0b01101110] = .instr (.sbbRmReg true .byte .memByteDisp 5 6) [] := by decide

theorem test_headerSbbRmReg : headerOf (step (State.reset.newRun [0x1A, 0x6E, 0xFF])) =
    some (.arith, 1, 0, 1) := by decide

theorem test_trailingSbbRmReg : recordOf (step (opened (.sbbRmReg true .byte .memByteDisp 5 6) [0x1A, 0x6E, 0xFF])) =
    some (3, "sbb ch, [bp + -1]") := by decide

theorem test_decodeSbbRmImm : decode [0b10000001, 0b11011010] = .instr (.sbbRmImm false .word .register 2) [] := by decide

theorem test_headerSbbRmImm : headerOf (step (State.reset.newRun [0x81, 0xDA, 0x00, 0x80])) =
    some (.arith, 0, 2, 2) := by decide

theorem test_trailingSbbRmImm : recordOf (step (opened (.sbbRmImm false .word .register 2) [0x81, 0xDA, 0x00, 0x80])) =
    some (4, "sbb dx, 32768") := by decide

theorem test_decodeSbbAccImm : decode [0b00011100, 0b00000001] = .instr (.sbbAccImm .byte 0x01) [] := by decide

theorem test_headerSbbAccImm : headerOf (step (State.reset.newRun [0x1C, 0x01])) =
    some (.arith, 0, 1, 0) := by decide

theorem test_trailingSbbAccImm : recordOf (step (opened (.sbbAccImm .byte 0x01) [0x1C, 0x01])) =
    some (2, "sbb al, 1") := by decide

theorem test_decodeSubRmReg : decode [0b00101000, 0b10100100] = .instr (.subRmReg false .byte .memWordDisp 4 4) [] := by decide

theorem test_headerSubRmReg : headerOf (step (State.reset.newRun [0x28, 0xA4, 0x34, 0xF2])) =
    some (.arith, 2, 0, 2) := by decide

theorem test_trailingSubRmReg : recordOf (step (opened (.subRmReg false .byte .memWordDisp 4 4) [0x28, 0xA4, 0x34, 0xF2])) =
    some (4, "sub [si + -3532], ah") := by decide

theorem test_decodeSubRmImm : decode [0b10000001, 0b10101100] = .instr (.subRmImm false .word .memWordDisp 4) [] := by decide

theorem test_headerSubRmImm : headerOf (step (State.reset.newRun [0x81, 0xAC, 0x34, 0x12, 0x78, 0x56])) =
    some (.arith, 2, 2, 4) := by decide

theorem test_trailingSubRmImm : recordOf (step (opened (.subRmImm false .word .memWordDisp 4) [0x81, 0xAC, 0x34, 0x12, 0x78, 0x56])) =
    some (6, "sub word [si + 4660], 22136") := by decide

theorem test_decodeSubAccImm : decode [0b00101100, 0b10000000] = .instr (.subAccImm .byte 0x80) [] := by decide

theorem test_headerSubAccImm : headerOf (step (State.reset.newRun [0x2C, 0x80])) =
    some (.arith, 0, 1, 0) := by decide

theorem test_trailingSubAccImm : recordOf (step (opened (.subAccImm .byte 0x80) [0x2C, 0x80])) =
    some (2, "sub al, 128") := by decide

theorem test_decodeCmpRmReg : decode [0b00111000, 0b00001110] = .instr (.cmpRmReg false .byte .memNoDisp 1 6) [] := by decide

theorem test_headerCmpRmReg : headerOf (step (State.reset.newRun [0x38, 0x0E, 0x34, 0x12])) =
    some (.arith, 2, 0, 2) := by decide

theorem test_trailingCmpRmReg : recordOf (step (opened (.cmpRmReg false .byte .memNoDisp 1 6) [0x38, 0x0E, 0x34, 0x12])) =
    some (4, "cmp [4660], cl") := by decide

theorem test_decodeCmpRmImm : decode [0b10000011, 0b00111110] = .instr (.cmpRmImm true .word .memNoDisp 6) [] := by decide

theorem test_headerCmpRmImm : headerOf (step (State.reset.newRun [0x83, 0x3E, 0x34, 0x12, 0x07])) =
    some (.arith, 2, 1, 3) := by decide

theorem test_trailingCmpRmImm : recordOf (step (opened (.cmpRmImm true .word .memNoDisp 6) [0x83, 0x3E, 0x34, 0x12, 0x07])) =
    some (5, "cmp word [4660], 7") := by decide

theorem test_decodeCmpAccImm : decode [0b00111101, 0b00110100] = .instr (.cmpAccImm .word 0x34) [] := by decide

theorem test_headerCmpAccImm : headerOf (step (State.reset.newRun [0x3D, 0x34, 0x12])) =
    some (.arith, 0, 2, 1) := by decide

theorem test_trailingCmpAccImm : recordOf (step (opened (.cmpAccImm .word 0x34) [0x3D, 0x34, 0x12])) =
    some (3, "cmp ax, 4660") := by decide

/-! The worked examples of the source, and the words of the opcode table. -/

theorem test_sourceS1 : recordOf (step (opened (.movRmReg false .word .register 3 0) [0x89, 0xD8])) =
    some (2, "mov ax, bx") := by decide
theorem test_sourceS2 : recordOf (step (opened (.movRegImm .byte 1 0x0C) [0xB1, 0x0C])) =
    some (2, "mov cl, 12") := by decide
theorem test_sourceS3 : recordOf (step (opened (.addRmReg true .word .memByteDisp 0 6) [0x03, 0x46, 0x00])) =
    some (3, "add ax, [bp + 0]") := by decide
theorem test_reservedRegAccepted : recordOf (step (opened (.movRmImm .byte .register 1 0) [0xC6, 0xC8, 0x05])) =
    some (3, "mov al, 5") := by decide
theorem test_reservedSignedByteAccepted :
    recordOf (step (opened (.addRmImm true .byte .register 3) [0x82, 0xC3, 0x05])) = some (3, "add bl, 5") := by decide

theorem test_tableWord : decodeTableWord 16 0x1080 = none ∧
    decodeTableWord 16 0x1880 = some (.sbbRmImm false .byte .memNoDisp 0) ∧
    decodeTableWord 8 0x80 = some (.addRmImm false .byte .memNoDisp 0) := by decide
theorem test_withFetchWord : headerOf (step (State.reset.withFetchWord 8 0xA1)) = some (.movAccMem, 2, 0, 1) := by decide

/-! Errors (95_test_vectors.md 2.11) and refusals (T3). -/

theorem test_errorE3 : errorOf (step (State.reset.newRun [0x08, 0x00])) = some (⟨.unrecognizedOpcode, 0⟩, 0) := by decide
theorem test_errorE4 : errorOf (step (State.reset.newRun [0x26, 0x8B, 0x07])) = some (⟨.unrecognizedOpcode, 0⟩, 0) := by
  decide
theorem test_errorE6 : errorOf (step (State.reset.newRun [0x80, 0x08])) = some (⟨.unknownArithmeticOp, 0⟩, 0) := by decide
theorem test_errorE8 : errorOf (step (State.reset.newRun [0x83, 0xF0, 0x01])) = some (⟨.unknownArithmeticOp, 0⟩, 0) := by
  decide
theorem test_errorE9 : errorOf (step (State.reset.newRun [0x83])) = some (⟨.truncatedStream, 0⟩, 0) := by decide
theorem test_errorE1 : errorOf (step (State.reset.newRun [0x90])) = some (⟨.unrecognizedOpcode, 0⟩, 0) := by decide
theorem test_errorE14 : errorOf (step (opened (.movRmReg true .word .memWordDisp 0 7) [0x8B, 0x87, 0x90])) =
    some (⟨.truncatedStream, 0⟩, 2) := by decide
theorem test_refusedT3 :
    refusal? (serve (.header [0x90, 0x01]) (opened (.movRmReg true .word .memWordDisp 0 7) [0x8B, 0x87, 0x90, 0x01])) =
      some .headerOutOfPhase ∧
    refusal? (serve (.trailing [0x90, 0x01, 0x00])
      (opened (.movRmReg true .word .memWordDisp 0 7) [0x8B, 0x87, 0x90, 0x01])) = some .trailingTooLong ∧
    refusal? (serve (.trailing [0x90]) (opened (.movRmReg true .word .memWordDisp 0 7) [0x8B, 0x87, 0x90, 0x01])) =
      some .bytesWithheld := by decide

/-! Witnesses of the statements' hypotheses. -/

theorem witness_ClassifyIndependentOfRowOrder : classifierTable.reverse.Perm classifierTable :=
  List.reverse_perm classifierTable

theorem witness_ArithmeticImmediateOpFromReg :
    (0x83 : Byte) &&& 0xFC = 0x80 ∧ decode [0x83, 0x3E] = .instr (.cmpRmImm true .word .memNoDisp 6) [] ∧
    (Instr.cmpRmImm true .word .memNoDisp 6).operands (.immRm (some 4660) (.word 7)) =
      some (.direct 4660, .imm (.word 7)) := by decide

theorem witness_OpcodeSelectorAgreesWithRow :
    classify 0x00 = some ⟨0xFC, 0x00, .arithRmReg .add⟩ ∧ classify 0x3D = some ⟨0xFE, 0x3C, .arithImmAcc .cmp⟩ := by decide

theorem witness_DirectionBitPlacesRegister :
    decode [0x8B, 0xC3] = .instr (.movRmReg true .word .register 0 3) [] ∧
    (Instr.movRmReg true .word .register 0 3).operands (.rmReg none) = some (.reg .word 0, .reg .word 3) ∧
    decode [0x89, 0xD8] = .instr (.movRmReg false .word .register 3 0) [] ∧
    (Instr.movRmReg false .word .register 3 0).operands (.rmReg none) = some (.reg .word 0, .reg .word 3) ∧
    decode [0x83, 0xC6] = .instr (.addRmImm true .word .register 6) [] ∧
    (Instr.addRmImm true .word .register 6).operands (.immRm none (.word 2)) = some (.reg .word 6, .imm (.word 2)) ∧
    decode [0xA2, 0x0F] = .instr (.movAddrAcc .byte 15) [] ∧ decode [0xA0, 0x0F] = .instr (.movAccAddr .byte 15) [] := by
  decide

theorem witness_ImmRegFieldsOfBytes : (0xB0 : Byte) &&& 0xF0 = 0xB0 ∧ (0xBF : Byte) &&& 0xF0 = 0xB0 := by decide

theorem witness_RmRegFieldsOfBytes : Mode.memNoDisp.bits = (0x3F : Byte).extractLsb' 6 2 ∧
    Mode.register.bits = (0xC0 : Byte).extractLsb' 6 2 ∧
    (0x8B : Byte) &&& 0xFC = 0x88 ∧ (0x03 : Byte) &&& 0xFC = 0x00 ∧ (0x1B : Byte) &&& 0xFC = 0x18 ∧
    (0x2B : Byte) &&& 0xFC = 0x28 ∧ (0x3B : Byte) &&& 0xFC = 0x38 := by decide

theorem witness_RmImmFieldsOfBytes : Mode.memByteDisp.bits = (0x7F : Byte).extractLsb' 6 2 ∧
    (0xC7 : Byte) &&& 0xFE = 0xC6 ∧ (0x83 : Byte) &&& 0xFC = 0x80 ∧ (0x47 : Byte).extractLsb' 3 3 = 0 ∧
    (0x5F : Byte).extractLsb' 3 3 = 3 ∧ (0x6F : Byte).extractLsb' 3 3 = 5 ∧ (0x7F : Byte).extractLsb' 3 3 = 7 := by decide

theorem witness_AccumulatorFieldsOfBytes : (0xA1 : Byte) &&& 0xFE = 0xA0 ∧ (0xA3 : Byte) &&& 0xFE = 0xA2 ∧
    (0x05 : Byte) &&& 0xFE = 0x04 ∧ (0x1D : Byte) &&& 0xFE = 0x1C ∧ (0x2D : Byte) &&& 0xFE = 0x2C ∧
    (0x3D : Byte) &&& 0xFE = 0x3C := by decide

theorem witness_HeaderEncodeDecodeRoundTrip :
    (Instr.cmpRmImm true .byte .register 7).wellFormed Config.strictReserved = true ∧
    decode [0x82, 0xFF, 0x00] = .instr (.cmpRmImm true .byte .register 7) [0x00] := by decide

theorem witness_FieldsExistOnlyInTheirForm :
    (Instr.movRegImm .byte 1 12).fits (.immReg (.byte 12)) = true ∧ (Instr.movRegImm .byte 1 12).form = .immReg ∧
    (Instr.movAccAddr .byte 0xFF).fits (.accMem 0xFFFF) = true ∧ (Instr.movAccAddr .byte 0xFF).form = .accMem ∧
    (Instr.subAccImm .word 0xFF).fits (.immAcc (.word 0xFFFF)) = true ∧
    (Instr.subAccImm .word 0xFF).form = .immAcc := by decide

theorem witness_DisplacementCountTable : (Instr.movRmImm .word .memNoDisp 1 6).mode = some .memNoDisp ∧
    (Instr.movRmImm .word .memNoDisp 1 6).rm = some 6 := by decide

theorem witness_DirectAddressExceptionAgrees :
    rmOperand .memNoDisp .word 6 (some 0) = some (.direct 0) ∧ rmOperand .memNoDisp .word 5 none = some (.mem 5 none) ∧
    rmOperand .memByteDisp .byte 6 (some 0) = some (.mem 6 (some 0)) ∧
    rmOperand .register .byte 6 none = some (.reg .byte 6) := by decide

theorem witness_RmOperandByMode : ([] : List Byte).length = dispCount .register 6 ∧
    ([0xFF, 0xFF] : List Byte).length = dispCount .memNoDisp 6 ∧ ([] : List Byte).length = dispCount .memNoDisp 7 ∧
    ([0x80] : List Byte).length = dispCount .memByteDisp 6 ∧ ([0, 0] : List Byte).length = dispCount .memWordDisp 0 := by
  decide

theorem witness_TrailingCountsByForm : (Instr.cmpRmReg true .word .register 0 0).form = .rmReg ∧
    (Instr.cmpRmImm false .word .memNoDisp 6).form = .immRm ∧ (Instr.cmpRmImm false .word .memNoDisp 6).need = 4 ∧
    (Instr.movRegImm .byte 7 0).form = .immReg ∧ (Instr.movRegImm .byte 7 0).w = .byte ∧
    (Instr.subAccImm .word 0).form = .immAcc ∧ (Instr.subAccImm .word 0).w = .word ∧
    (Instr.movAddrAcc .byte 0).form = .accMem := by decide

theorem witness_RmRegInstructionsComplete :
    (State.reset.newRun [0x38, 0x0E, 0x34, 0x12]).phase = .idle ∧
    (opened (.cmpRmReg false .byte .memNoDisp 1 6) [0x38, 0x0E, 0x34, 0x12]).phase = .trailing ∧
    (opened (.cmpRmReg false .byte .memNoDisp 1 6) [0x38, 0x0E, 0x34, 0x12]).latch =
      some ⟨.cmpRmReg false .byte .memNoDisp 1 6, 2, 0, 2⟩ ∧ dispCount .memNoDisp 6 = 2 ∧
    (opened (.cmpRmReg false .byte .memNoDisp 1 6) [0x38, 0x0E, 0x34, 0x12]).stream.window 2 2 = [0x34, 0x12] := by decide

theorem witness_RmImmInstructionsComplete :
    (State.reset.newRun [0x83, 0x3E, 0x34, 0x12, 0x07]).phase = .idle ∧
    (opened (.cmpRmImm true .word .memNoDisp 6) [0x83, 0x3E, 0x34, 0x12, 0x07]).phase = .trailing ∧
    (opened (.cmpRmImm true .word .memNoDisp 6) [0x83, 0x3E, 0x34, 0x12, 0x07]).latch =
      some ⟨.cmpRmImm true .word .memNoDisp 6, 2, 1, 3⟩ ∧ dispCount .memNoDisp 6 = 2 ∧
    (opened (.cmpRmImm true .word .memNoDisp 6) [0x83, 0x3E, 0x34, 0x12, 0x07]).stream.window 2 3 =
      [0x34, 0x12] ++ [0x07] := by decide

theorem witness_ImmRegInstructionCompletes :
    (0xB1 : Byte) &&& 0xF0 = 0xB0 ∧ (0xBF : Byte) &&& 0xF0 = 0xB0 ∧
    (State.reset.newRun [0xB1, 0x0C]).phase = .idle ∧ (opened (.movRegImm .byte 1 12) [0xB1, 0x0C]).phase = .trailing ∧
    (opened (.movRegImm .byte 1 12) [0xB1, 0x0C]).latch = some ⟨.movRegImm .byte 1 12, 0, 1, 0⟩ ∧
    (opened (.movRegImm .word 7 0x34) [0xBF, 0x34, 0xF2]).latch = some ⟨.movRegImm .word 7 0x34, 0, 2, 1⟩ ∧
    (opened (.movRegImm .word 7 0x34) [0xBF, 0x34, 0xF2]).stream.window 2 1 = [0xF2] ∧
    (opened (.movRegImm .word 7 0x34) [0xBF, 0x34]).stream.window 2 1 = [] := by decide

theorem witness_AccMemInstructionsComplete :
    (State.reset.newRun [0xA3, 0x00, 0x80]).phase = .idle ∧
    (opened (.movAddrAcc .word 0) [0xA3, 0x00, 0x80]).phase = .trailing ∧
    (opened (.movAddrAcc .word 0) [0xA3, 0x00, 0x80]).latch = some ⟨.movAddrAcc .word 0, 2, 0, 1⟩ ∧
    (opened (.movAddrAcc .word 0) [0xA3, 0x00, 0x80]).stream.window 2 1 = [0x80] := by decide

theorem witness_AccImmInstructionsComplete :
    (State.reset.newRun [0x1D, 0x00, 0x80]).phase = .idle ∧
    (opened (.sbbAccImm .word 0) [0x1D, 0x00, 0x80]).latch = some ⟨.sbbAccImm .word 0, 0, 2, 1⟩ ∧
    (opened (.sbbAccImm .word 0) [0x1D, 0x00, 0x80]).stream.window 2 1 = [0x80] ∧
    (32768 : U16).toNat = (0x80 : Byte).toNat * 256 + (0 : Byte).toNat ∧
    (opened (.subAccImm .byte 0x80) [0x2C, 0x80]).latch = some ⟨.subAccImm .byte 0x80, 0, 1, 0⟩ ∧
    (opened (.subAccImm .byte 0x80) [0x2C, 0x80]).stream.window 2 0 = [] := by decide

theorem witness_ShortTrailingRaisesTruncated :
    (opened (.movRmReg true .word .memWordDisp 0 7) [0x8B, 0x87, 0x90]).phase = .trailing ∧
    (opened (.movRmReg true .word .memWordDisp 0 7) [0x8B, 0x87, 0x90]).latch =
      some (Instr.movRmReg true .word .memWordDisp 0 7).latched ∧
    [0x90] = (opened (.movRmReg true .word .memWordDisp 0 7) [0x8B, 0x87, 0x90]).stream.window 2 2 ∧
    ([0x90] : List Byte).length < (Instr.movRmReg true .word .memWordDisp 0 7).need := by decide

theorem witness_InstructionFrame :
    (next? (exec (.movRegImm .byte 1 12) (State.reset.newRun [0xB1, 0x0C]))).isSome = true ∧
    (next? (exec (.movRegImm .byte 1 12) (opened (.movRegImm .byte 1 12) [0xB1, 0x0C]))).isSome = true ∧
    (next? (exec (.movAccAddr .word 0xFB) (opened (.movAccAddr .word 0xFB) [0xA1, 0xFB]))).isSome = true := by decide

theorem witness_StepRunsDecodedHeader : (State.reset.newRun [0x82, 0xC3, 0x05]).calls = [] ∧
    (State.reset.newRun [0x82, 0xC3, 0x05]).phase = .idle ∧
    decode ((State.reset.newRun [0x82, 0xC3, 0x05]).stream.window 0 2) = .instr (.addRmImm true .byte .register 3) [] ∧
    (Instr.addRmImm true .byte .register 3).wellFormed Config.strictReserved = true := by decide

theorem witness_StepRunsOpenInstruction : (opened (.movRegImm .byte 1 12) [0xB1, 0x0C]).calls = [] ∧
    (opened (.movRegImm .byte 1 12) [0xB1, 0x0C]).phase = .trailing ∧
    (opened (.movRegImm .byte 1 12) [0xB1, 0x0C]).latch = some ⟨.movRegImm .byte 1 12, 0, 1, 0⟩ := by decide

theorem witness_EndOfStreamChangesNothing : State.reset.calls = [] ∧ State.reset.phase = .idle ∧
    State.reset.stream.read State.reset.pos = none := by decide

theorem witness_HeaderErrorsByPriority :
    (State.reset.newRun [0x80, 0x08]).calls = [] ∧ (State.reset.newRun [0x80, 0x08]).phase = .idle ∧
    (State.reset.newRun [0x08, 0x00]).stream.window 0 2 = [0x08, 0x00] ∧ classify 0x08 = none ∧
    (State.reset.newRun [0x83]).stream.window 0 2 = [0x83] ∧ classify 0x83 ≠ none ∧
    (State.reset.newRun [0x80, 0x08]).stream.window 0 2 = [0x80, 0x08] ∧ (0x80 : Byte) &&& 0xFC = 0x80 ∧
    sel ((0x08 : Byte).extractLsb' 3 3) = none ∧
    (State.reset.newRun [0x80, 0x18]).stream.window 0 2 = [0x80, 0x18] ∧
    ¬ ((0x80 : Byte) &&& 0xFC = 0x80 ∧ sel ((0x18 : Byte).extractLsb' 3 3) = none) := by decide

theorem witness_HaltedLeftOnlyByReset :
    ({ stopped .unrecognizedOpcode [0x90] with calls := [.reset] } : State).phase = .halted ∧
    (next? (step { stopped .unrecognizedOpcode [0x90] with calls := [.reset] })).isSome = true ∧
    (next? (step { stopped .unrecognizedOpcode [0x90] with calls := [.newRun []] })).isSome = true := by decide

theorem witness_HaltedCanonicalStepFaults : (stopped .unrecognizedOpcode [0x90]).phase = .halted ∧
    (stopped .unrecognizedOpcode [0x90]).calls = [] := by decide

theorem witness_ResetAcceptedInEveryPhase :
    ({ opened (.movRegImm .byte 1 12) [0xB1, 0x0C] with calls := [.reset] } : State).calls = .reset :: [] := by decide

theorem witness_NewRunStartsOnItsStream :
    ({ State.reset with calls := [.newRun [0xB1, 0x0C]] } : State).calls = .newRun [0xB1, 0x0C] :: [] := by decide

theorem witness_ProtocolBreachesRefused :
    (opened (.movRmReg true .word .memWordDisp 0 7) [0x8B, 0x87, 0x90, 0x01]).phase ≠ .idle ∧
    (State.reset.newRun [0xB1, 0x0C, 0x00]).phase = .idle ∧ 2 < ([0xB1, 0x0C, 0x00] : List Byte).length ∧
    ([0xB1] : List Byte).length < ((State.reset.newRun [0xB1, 0x0C]).stream.window 0 2).length ∧
    (State.reset.newRun [0xB1, 0x0C]).phase ≠ .trailing ∧
    (opened (.movRmReg true .word .memWordDisp 0 7) [0x8B, 0x87, 0x90, 0x01]).latch =
      some ⟨.movRmReg true .word .memWordDisp 0 7, 2, 0, 2⟩ ∧ 2 < ([0x90, 0x01, 0x00] : List Byte).length ∧
    ([0x90] : List Byte).length <
      ((opened (.movRmReg true .word .memWordDisp 0 7) [0x8B, 0x87, 0x90, 0x01]).stream.window 2 2).length := by decide

theorem witness_newRun_inv (bytes : List Byte) : (State.reset.newRun bytes).Inv where
  stream_dense := by
    rw [State.newRun_stream]
    exact Memory.ofBytes_dense bytes
  pos_in_stream := Nat.zero_le _
  records_wf := fun r h => absurd h (by simp)
  idle := fun _ => ⟨rfl, rfl⟩
  trailing := fun h => absurd h (by simp)
  halted := fun h => absurd h (by simp)

theorem witness_CanonicalCallerNeverRefused : (State.reset.newRun [0xB1, 0x0C]).Inv ∧
    (State.reset.newRun [0xB1, 0x0C]).calls = [] ∧ (State.reset.newRun [0xB1, 0x0C]).phase ≠ .halted :=
  ⟨witness_newRun_inv _, by decide, by decide⟩

theorem witness_StepKeepsStreamAndRecords : ∃ t, step (opened (.movRegImm .byte 1 12) [0xB1, 0x0C]) = .next t ∧
    ∀ bs cs, (opened (.movRegImm .byte 1 12) [0xB1, 0x0C]).calls ≠ .newRun bs :: cs :=
  ⟨_, rfl, fun _ _ h => List.cons_ne_nil _ _ h.symm⟩

theorem witness_PositionNeverMovesBack : ∃ t, step (opened (.movAccAddr .word 0xFB) [0xA1, 0xFB, 0x09]) = .next t ∧
    (∀ cs, (opened (.movAccAddr .word 0xFB) [0xA1, 0xFB, 0x09]).calls ≠ .reset :: cs) ∧
    ∀ bs cs, (opened (.movAccAddr .word 0xFB) [0xA1, 0xFB, 0x09]).calls ≠ .newRun bs :: cs :=
  ⟨_, rfl, fun _ h => List.cons_ne_nil _ _ h.symm, fun _ _ h => List.cons_ne_nil _ _ h.symm⟩

theorem witness_EveryStepKeepsInvariant : ∃ t, (State.reset.newRun [0x90]).Inv ∧
    step (State.reset.newRun [0x90]) = .next t := ⟨_, witness_newRun_inv _, rfl⟩

theorem witness_RecordsTileTheStream : decodeStream [0xB1, 0x0C, 0x90] =
    some ([⟨.movRegImm .byte 1 12, 0, 2, .immReg (.byte 12), .reg .byte 1, .imm (.byte 12)⟩],
      some ⟨.unrecognizedOpcode, 2⟩) := by decide

theorem witness_CleanRunReencodesToItsStream : decodeStream [0xB1, 0x0C] =
    some ([⟨.movRegImm .byte 1 12, 0, 2, .immReg (.byte 12), .reg .byte 1, .imm (.byte 12)⟩], none) := by decide

theorem witness_EncodedProgramDecodesToItself :
    ∀ x ∈ [(Instr.movRegImm .byte 1 12, Attached.immReg (.byte 12)),
      (Instr.cmpRmImm true .word .memByteDisp 6, Attached.immRm (some 0xFF80) (.word 0xFFFF))],
      x.1.wellFormed Config.strictReserved = true ∧ x.1.fits x.2 = true := by decide

theorem witness_ExtendedStreamKeepsRecords : decodeStream [0xB1, 0x0C] =
    some ([⟨.movRegImm .byte 1 12, 0, 2, .immReg (.byte 12), .reg .byte 1, .imm (.byte 12)⟩], none) :=
  witness_CleanRunReencodesToItsStream

theorem witness_RecordsDependOnConsumedBytesOnly :
    ([0xB1, 0x0C] : List Byte).take 2 = ([0xB1, 0x0C, 0x90] : List Byte).take 2 ∧
    decodeStream [0xB1, 0x0C] =
      some ([⟨.movRegImm .byte 1 12, 0, 2, .immReg (.byte 12), .reg .byte 1, .imm (.byte 12)⟩], none) ∧
    decodeStream [0xB1, 0x0C, 0x90] =
      some ([⟨.movRegImm .byte 1 12, 0, 2, .immReg (.byte 12), .reg .byte 1, .imm (.byte 12)⟩],
        some ⟨.unrecognizedOpcode, 2⟩) ∧ 0 + 2 ≤ 2 := by decide

theorem witness_CutInstructionIsTruncated :
    (Instr.movRmImm .word .memWordDisp 0 5).wellFormed Config.strictReserved = true ∧
    (Instr.movRmImm .word .memWordDisp 0 5).fits (.immRm (some 844) (.word 347)) = true ∧ 0 < 1 ∧ 0 < 5 ∧
    1 < (encodeComplete (.movRmImm .word .memWordDisp 0 5) (.immRm (some 844) (.word 347))).length ∧
    5 < (encodeComplete (.movRmImm .word .memWordDisp 0 5) (.immRm (some 844) (.word 347))).length := by decide

theorem witness_NoRunRecordsInvalidMode : decodeStream [0x83] = some ([], some ⟨.truncatedStream, 0⟩) := by decide

theorem witness_RenderedLineShape : (Instr.movRegImm .byte 1 12).op = .mov ∧
    (Instr.addAccImm .byte 9).op = .arith .add ∧ (Instr.sbbAccImm .byte 1).op = .arith .sbb ∧
    (Instr.subAccImm .byte 0x80).op = .arith .sub ∧ (Instr.cmpAccImm .byte 0).op = .arith .cmp := by decide

theorem witness_SizeKeywordExactly : (Instr.addRmImm false .byte .memNoDisp 7).form = .immRm ∧
    (Record.mk (.addRmImm false .byte .memNoDisp 7) 0 3 (.immRm none (.byte 34)) (.mem 7 none) (.imm (.byte 34))).dst =
      .mem 7 none ∧
    (Record.mk (.cmpRmImm true .word .memNoDisp 6) 0 5 (.immRm (some 4660) (.word 7)) (.direct 4660)
      (.imm (.word 7))).dst = .direct 4660 ∧ (Instr.movRegImm .byte 1 12).form ≠ .immRm := by decide

theorem witness_MemoryTextTellsDisplacement :
    operandText (.mem 6 (some 0)) = operandText (.mem 6 (some 0)) ∧
    operandText (.direct 65535) = operandText (.direct 65535) := by decide

end Sys2Proof.Tests
end

section
/-! Which row classifies a byte, which field bit 1 of byte 0 becomes, and the obligations on `d` and on IMM_REG
(30_encoding.md R39, R42). -/

namespace Sys2Proof

/-- A row of the table that matches a byte is the row `classify` answers, since no byte matches two rows. -/
theorem classify_of_mem {b0 : Byte} {row : ClassRow} (hmem : row ∈ classifierTable) (hbits : b0 &&& row.mask = row.bits) :
    classify b0 = some row := by
  have hrow : row.accepts b0 = true := by simpa [ClassRow.accepts] using hbits
  obtain ⟨found, hfound⟩ : ∃ r, classify b0 = some r :=
    Option.isSome_iff_exists.mp (List.find?_isSome.mpr ⟨row, hmem, hrow⟩)
  have hfoundMem : found ∈ classifierTable := List.mem_of_find?_eq_some hfound
  have haccepts : found.accepts b0 = true := List.find?_some hfound
  rw [hfound, classifierRows_disjoint b0 found hfoundMem row hmem haccepts hrow]

/-! The fields of the instructions that the arithmetic extractors build. -/

@[simp] theorem rmRegInstr_form (op : ArithOp) (d : Bool) (w : Width) (mode : Mode) (reg rm : U3) :
    (rmRegInstr op d w mode reg rm).form = .rmReg := by cases op <;> rfl

@[simp] theorem rmRegInstr_d (op : ArithOp) (d : Bool) (w : Width) (mode : Mode) (reg rm : U3) :
    (rmRegInstr op d w mode reg rm).d = some d := by cases op <;> rfl

@[simp] theorem rmImmInstr_form (op : ArithOp) (s : Bool) (w : Width) (mode : Mode) (rm : U3) :
    (rmImmInstr op s w mode rm).form = .immRm := by cases op <;> rfl

@[simp] theorem rmImmInstr_s (op : ArithOp) (s : Bool) (w : Width) (mode : Mode) (rm : U3) :
    (rmImmInstr op s w mode rm).s = some s := by cases op <;> rfl

@[simp] theorem accImmInstr_form (op : ArithOp) (w : Width) (b1 : Byte) :
    (accImmInstr op w b1).form = .immAcc := by cases op <;> rfl

/-- Bit 1 of byte 0 is `d`, `t` or `s`, by the form of the extracted instruction (R39, R40, R43). -/
theorem extract_bit1 {l : Layout} {b0 b1 : Byte} {i : Instr} (h : extract l b0 b1 = .ok i) :
    (i.form = .rmReg → i.d = some (bit1Of b0)) ∧ (i.form = .accMem → i.toMem = some (bit1Of b0)) ∧
    (i.form = .immRm → i.family = .arith → i.s = some (bit1Of b0)) := by
  cases l with
  | movImmReg | movImmRm | movRmReg =>
    cases h
    simp [Instr.form, Instr.d, Instr.family]
  | movAccMem =>
    cases h
    cases bit1Of b0 <;> simp [Instr.form, Instr.toMem]
  | arithRmReg op | arithImmAcc op =>
    cases h
    simp
  | arithImmRm =>
    simp only [extract] at h
    split at h <;> cases h
    simp

/-! The operands by form (43_resolver.md R96). -/

/-- A direction puts the register operand first when it is set and second when it is not. -/
theorem register_of_orderByDirection {d : Bool} {regop rmop dst src : Operand}
    (h : orderByDirection d regop rmop = (dst, src)) : (if d then dst else src) = regop := by
  cases d <;> cases h <;> rfl

/-- In RM_REG the register of `reg` is the operand `d` points at. -/
theorem register_of_operands_rmReg {i : Instr} {d : Bool} (hd : i.d = some d) {a : Attached} {dst src : Operand}
    (h : i.operands a = some (dst, src)) :
    ∃ r, i.reg = some r ∧ (if d then dst else src) = .reg i.w r := by
  cases i <;> cases hd
  case movRmReg mode reg rm | addRmReg mode reg rm | sbbRmReg mode reg rm | subRmReg mode reg rm | cmpRmReg mode reg rm =>
    cases a <;> simp only [Instr.operands, Option.map_eq_some_iff, reduceCtorEq] at h
    obtain ⟨rmop, -, horder⟩ := h
    exact ⟨reg, rfl, register_of_orderByDirection horder⟩

theorem d_eq_none_of_form_ne {i : Instr} (h : i.form ≠ .rmReg) : i.d = none := by
  cases i
  case movRmReg | addRmReg | sbbRmReg | subRmReg | cmpRmReg => exact absurd rfl h
  all_goals rfl

/-- In the three immediate forms the source is the immediate. -/
theorem source_of_operands_imm {i : Instr} (hform : i.form = .immRm ∨ i.form = .immReg ∨ i.form = .immAcc)
    {a : Attached} {dst src : Operand} (h : i.operands a = some (dst, src)) : ∃ v, src = .imm v := by
  cases i
  case movRmReg | addRmReg | sbbRmReg | subRmReg | cmpRmReg | movAccAddr | movAddrAcc => simp [Instr.form] at hform
  case movRmImm | addRmImm | sbbRmImm | subRmImm | cmpRmImm =>
    cases a <;> simp only [Instr.operands, Option.map_eq_some_iff, reduceCtorEq] at h
    obtain ⟨rmop, -, hpair⟩ := h
    cases hpair
    exact ⟨_, rfl⟩
  case movRegImm | addAccImm | sbbAccImm | subAccImm | cmpAccImm =>
    cases a <;> cases h
    exact ⟨_, rfl⟩

/-- Settles O8: bit 1 is what the extractor reads (`extract_bit1`), and where the operands stand depends on the
instruction alone. -/
theorem directionBitPlacesRegister : Obligations.DirectionBitPlacesRegister := by
  intro b0 b1 rest i h
  obtain ⟨_, _, row, hbytes, -, hextract⟩ := decode_instr h
  cases hbytes
  obtain ⟨hd, ht, hs⟩ := extract_bit1 hextract
  exact ⟨fun hform => ⟨hd hform, fun _ _ _ => register_of_operands_rmReg (hd hform)⟩, d_eq_none_of_form_ne,
    fun hform _ _ _ => source_of_operands_imm hform, ht, hs⟩

/-- Settles O9: the pattern 1011wrrr is the table's first row; 0xB1 is the case w = 0, rrr = 001. -/
theorem immRegFieldsOfBytes : Obligations.ImmRegFieldsOfBytes := by
  have hfields (b0 b1 : Byte) (rest : List Byte) (h : b0 &&& 0xF0 = 0xB0) :
      decode (b0 :: b1 :: rest) =
        .instr (.movRegImm (if b0.getLsbD 3 then .word else .byte) (b0.extractLsb' 0 3) b1) rest := by
    rw [decode_two b0 b1 rest (classify_of_mem (row := ⟨0xF0, 0xB0, .movImmReg⟩) (by decide) h)]
    rfl
  exact ⟨hfields, fun b1 rest => ⟨hfields 0xB1 b1 rest (by decide), rfl⟩⟩

end Sys2Proof
end

section
/-! mov of an immediate to a register, from its header bytes to its record (41_mov.md R64). -/

namespace Sys2Proof.Machine

/-- The chunk holds the low byte of the immediate, so only the byte after it, if any, is asked for (43_resolver.md R86). -/
@[simp] theorem latched_movRegImm (w : Width) (reg : U3) (b1 : Byte) :
    (Instr.movRegImm w reg b1).latched = ⟨.movRegImm w reg b1, 0, immCount w, immCount w - 1⟩ := by
  simp [Instr.latched, Instr.ndisp, Instr.nimm, Instr.need, Instr.form]

theorem need_movRegImm (w : Width) (reg : U3) (b1 : Byte) : (Instr.movRegImm w reg b1).need = immCount w - 1 :=
  congrArg Latch.need (latched_movRegImm w reg b1)

/-- With all its bytes at hand, the trailing step emits the immediate that `b1` and those bytes are, and its register. -/
theorem exec_movRegImm_full {w : Width} {reg : U3} {b1 : Byte} {bytes : List Byte} {imm : Imm} {s : State}
    (hp : s.phase = .trailing) (hl : s.latch = some (Instr.movRegImm w reg b1).latched)
    (hbytes : s.stream.window s.pos (immCount w - 1) = bytes) (hlen : bytes.length = immCount w - 1)
    (himm : immValue w false (b1 :: bytes) = some imm) :
    exec (.movRegImm w reg b1) s = .next (s.emit (Instr.movRegImm w reg b1).latched
      ⟨.movRegImm w reg b1, s.ioff, 2 + (immCount w - 1), .immReg imm, .reg w reg, .imm imm⟩) := by
  have hwindow : s.stream.window s.pos (Instr.movRegImm w reg b1).need = bytes := by rw [need_movRegImm, hbytes]
  have hfinish : (Instr.movRegImm w reg b1).finish ((Instr.movRegImm w reg b1).lead ++ bytes) =
      some ⟨.immReg imm, .reg w reg, .imm imm⟩ := by
    simp [Instr.finish, Instr.lead, Instr.b1, finishRegImm, himm]
  rw [exec_full hp hl (by rw [hwindow, hlen, need_movRegImm]) (by rw [hwindow]; exact hfinish)]
  simp [Finished.record]

/-- Settles O26: the fields are those of `immRegFieldsOfBytes`; of the trailing step, the byte form asks for no byte and so
cannot be short, and the word form asks for the one high byte. -/
theorem immRegInstructionCompletes : Obligations.ImmRegInstructionCompletes := by
  intro b0 b1 rest w reg i hb0 hw hreg hinstr
  have hdecode : decode (b0 :: b1 :: rest) = .instr i rest := by
    rw [hinstr, hw, hreg]
    exact immRegFieldsOfBytes.1 b0 b1 rest hb0
  subst hinstr
  refine ⟨hdecode, rfl, rfl, rfl, rfl, rfl, rfl, fun s => ⟨fun hidle => ?header, ?byte, ?word⟩⟩
  case header =>
    exact ⟨_, _, exec_idle _ hidle, rfl, rfl, rfl, by cases w <;> rfl, by simp, rfl, rfl⟩
  case byte =>
    rintro rfl hp hl
    exact ⟨_, exec_movRegImm_full hp hl (bytes := []) rfl rfl rfl, rfl, rfl, rfl⟩
  case word =>
    rintro rfl hp hl
    refine ⟨fun hi hwindow => ?_, fun hwindow => ?_⟩
    · exact ⟨_, le16 b1 hi, exec_movRegImm_full hp hl hwindow rfl rfl, rfl, rfl, toNat_le16 b1 hi, rfl⟩
    · have hshort : (s.stream.window s.pos 1).length < 1 := by simp [hwindow]
      exact ⟨_, exec_short hp hl hshort, rfl, rfl⟩

end Sys2Proof.Machine
end

section
/-! The arithmetic immediate form: what byte 0 and ModRM say of the instruction and its operands (42_arith.md R69). -/

namespace Sys2Proof

@[simp] theorem rmImmInstr_op (op : ArithOp) (s : Bool) (w : Width) (mode : Mode) (rm : U3) :
    (rmImmInstr op s w mode rm).op = .arith op := by cases op <;> rfl

@[simp] theorem rmImmInstr_rm (op : ArithOp) (s : Bool) (w : Width) (mode : Mode) (rm : U3) :
    (rmImmInstr op s w mode rm).rm = some rm := by cases op <;> rfl

/-- A byte 100000sw has the `add` selector in bits 5:3: the mask keeps these bits, and they are 0 in the pattern. -/
theorem selOfOpcode_arithImmRm {b0 : Byte} (h : b0 &&& 0xFC = 0x80) : selOfOpcode b0 = 0 :=
  calc b0.extractLsb' 3 3
    _ = b0.extractLsb' 3 3 &&& (0xFC : Byte).extractLsb' 3 3 := (BitVec.and_allOnes ..).symm
    _ = (b0 &&& 0xFC).extractLsb' 3 3 := BitVec.extractLsb'_and.symm
    _ = 0 := by rw [h]; rfl

/-- A header 100000sw that decodes has a recognized selector in ModRM reg, and the instruction is built on it. -/
theorem decode_arithImmRm_instr {b0 b1 : Byte} {rest : List Byte} {i : Instr} (hb0 : b0 &&& 0xFC = 0x80)
    (h : decode (b0 :: b1 :: rest) = .instr i rest) :
    ∃ op, sel (regOf b1) = some op ∧ i = rmImmInstr op (bit1Of b0) (widthOf b0) (modeOf b1) (rmOf b1) := by
  rw [decode_two b0 b1 rest (classify_of_mem (row := ⟨0xFC, 0x80, .arithImmRm⟩) (by decide) hb0)] at h
  rcases hsel : sel (regOf b1) with _ | op <;> simp only [extract, hsel, reduceCtorEq] at h
  cases h
  exact ⟨op, rfl, rfl⟩

/-- In IMM_RM the destination is the operand that `mode` and `rm` name (43_resolver.md R96). -/
theorem destination_of_operands_immRm {i : Instr} (hform : i.form = .immRm) {a : Attached} {dst src : Operand}
    (h : i.operands a = some (dst, src)) :
    ∃ mode rm disp, i.mode = some mode ∧ i.rm = some rm ∧ rmOperand mode i.w rm disp = some dst := by
  cases i <;> cases hform
  case movRmImm w mode _ rm | addRmImm w mode rm | sbbRmImm w mode rm | subRmImm w mode rm | cmpRmImm w mode rm =>
    cases a <;> simp only [Instr.operands, Option.map_eq_some_iff, reduceCtorEq] at h
    case immRm disp _ =>
      obtain ⟨rmop, hrmop, hpair⟩ := h
      cases hpair
      exact ⟨mode, rm, disp, rfl, rfl, hrmop⟩

/-- Settles O6: the operation is the one the extractor resolves from ModRM reg, and the operands are those of the form
IMM_RM. -/
theorem arithmeticImmediateOpFromReg : Obligations.ArithmeticImmediateOpFromReg := by
  intro b0 b1 rest i hb0 hdecode
  obtain ⟨op, hsel, rfl⟩ := decode_arithImmRm_instr hb0 hdecode
  refine ⟨selOfOpcode_arithImmRm hb0, ⟨op, hsel, rmImmInstr_op ..⟩, fun a dst src hoperands => ⟨?dst, ?src⟩⟩
  case dst =>
    obtain ⟨mode, rm, disp, hmode, hrm, hdst⟩ := destination_of_operands_immRm (rmImmInstr_form ..) hoperands
    rw [rmImmInstr_rm, Option.some_inj] at hrm
    subst hrm
    exact ⟨mode, disp, hmode, hdst⟩
  case src => exact source_of_operands_imm (.inl (rmImmInstr_form ..)) hoperands

end Sys2Proof
end

section
/-! The displacement count and the operand that `mode` and `rm` name (43_resolver.md R83, R84, R95). -/

namespace Sys2Proof

/-! The direct-address exception in sizing and in the operand (R83, R84). -/

@[simp] theorem isDirect_iff {mode : Mode} {rm : U3} : isDirect mode rm = true ↔ mode = .memNoDisp ∧ rm = 0b110 := by
  simp [isDirect]

theorem dispCount_memNoDisp (rm : U3) : dispCount .memNoDisp rm = if rm = 0b110 then 2 else 0 := by
  simp [dispCount]

/-- Under mode 00 the count is 2 exactly with the exception. -/
theorem dispCount_eq_two_iff_of_memNoDisp {mode : Mode} {rm : U3} :
    mode = .memNoDisp ∧ dispCount mode rm = 2 ↔ mode = .memNoDisp ∧ rm = 0b110 := by
  refine and_congr_right ?_
  rintro rfl
  simp [dispCount_memNoDisp]

/-- Where there are displacement bytes, there is a displacement (R89). -/
theorem dispValue_eq_some_of_pos {bytes : List Byte} (h : 0 < bytes.length) : ∃ v, dispValue bytes = some v := by
  match bytes, h with
  | [_], _ => exact ⟨_, rfl⟩
  | _ :: _ :: _, _ => exact ⟨_, rfl⟩

@[simp] theorem Mode.bits_ofBits (m : U2) : (Mode.ofBits m).bits = m := by
  revert m
  decide

/-- The displacement bytes are those the ModRM byte asks for (R87): an instruction without one has no `mode`, and in the
others `ndisp` looks at `mode` and `rm` only. -/
theorem ndisp_of_modrm {i : Instr} {mode : Mode} {rm : U3} (hmode : i.mode = some mode) (hrm : i.rm = some rm) :
    i.ndisp = dispCount mode rm := by
  cases i <;> cases hmode <;> cases hrm
  all_goals rfl

/-- Settles O16: each value of the two bits is a mode, and the count looks at rm in mode 00 only. -/
theorem displacementCountTable : Obligations.DisplacementCountTable := by
  refine ⟨fun m rm => ?_, fun _ _ _ => ndisp_of_modrm⟩
  obtain ⟨mode, rfl⟩ : ∃ mode : Mode, mode.bits = m := ⟨_, Mode.bits_ofBits m⟩
  rw [Mode.ofBits_bits]
  cases mode with
  | memNoDisp => exact dispCount_memNoDisp rm
  | memByteDisp | memWordDisp | register => rfl

/-! The three operands of the mode multiplexer (R95). -/

theorem rmOperand_register (w : Width) (rm : U3) (disp : Option U16) :
    rmOperand .register w rm disp = some (.reg w rm) := if_pos rfl

theorem rmOperand_direct (w : Width) (disp : Option U16) : rmOperand .memNoDisp w 0b110 disp = disp.map .direct := rfl

theorem rmOperand_mem {mode : Mode} {rm : U3} (hmem : mode ≠ .register) (hrm : ¬(mode = .memNoDisp ∧ rm = 0b110))
    (w : Width) (disp : Option U16) : rmOperand mode w rm disp = some (.mem rm disp) := by
  rw [rmOperand, if_neg hmem, if_neg (mt isDirect_iff.mp hrm)]

/-- A direct address comes from the exception only, and it is the displacement. -/
theorem rmOperand_eq_direct_iff {mode : Mode} {w : Width} {rm : U3} {disp : Option U16} {a : U16} :
    rmOperand mode w rm disp = some (.direct a) ↔ (mode = .memNoDisp ∧ rm = 0b110) ∧ disp = some a := by
  by_cases hexc : mode = .memNoDisp ∧ rm = 0b110
  · obtain ⟨rfl, rfl⟩ := hexc
    rw [rmOperand_direct]
    simp
  · by_cases hreg : mode = .register
    · simp [hreg, rmOperand_register]
    · rw [rmOperand_mem hreg hexc]
      exact ⟨nofun, fun h => absurd h.1 hexc⟩

/-- Settles O22: the length of `bytes` tells in each mode whether the displacement is there, and the operand is that of
the mode. -/
theorem rmOperandByMode : Obligations.RmOperandByMode := by
  intro mode w rm bytes hlen
  refine ⟨?register, ?direct, ?noDisp, ?disp⟩
  case register =>
    rintro rfl
    obtain rfl : bytes = [] := List.eq_nil_of_length_eq_zero hlen
    exact ⟨rfl, rmOperand_register ..⟩
  case direct =>
    rintro rfl rfl
    obtain ⟨a, ha⟩ : ∃ a, dispValue bytes = some a := dispValue_eq_some_of_pos (hlen ▸ Nat.two_pos)
    exact ⟨a, ha, by rw [ha, rmOperand_direct, Option.map_some]⟩
  case noDisp =>
    rintro rfl hrm
    rw [dispCount_memNoDisp, if_neg hrm] at hlen
    obtain rfl : bytes = [] := List.eq_nil_of_length_eq_zero hlen
    exact rmOperand_mem (by decide) (hrm ·.2) ..
  case disp =>
    intro hmode
    obtain ⟨hpos, hmem, hnot00⟩ : 0 < dispCount mode rm ∧ mode ≠ .register ∧ mode ≠ .memNoDisp := by
      rcases hmode with rfl | rfl <;> simp [dispCount]
    obtain ⟨v, hv⟩ := dispValue_eq_some_of_pos (hlen ▸ hpos)
    exact ⟨v, hv, hv ▸ rmOperand_mem hmem (hnot00 ·.1) ..⟩

/-- Settles O17: `isDirect` decides the count and the operand alike. -/
theorem directAddressExceptionAgrees : Obligations.DirectAddressExceptionAgrees := by
  intro mode w rm disp op hop
  refine ⟨?operand, dispCount_eq_two_iff_of_memNoDisp, ?address⟩
  case operand =>
    rw [dispCount_eq_two_iff_of_memNoDisp]
    constructor
    · rintro ⟨a, rfl⟩
      exact (rmOperand_eq_direct_iff.mp hop).1
    · rintro ⟨rfl, rfl⟩
      obtain ⟨a, -, ha⟩ := Option.map_eq_some_iff.mp hop
      exact ⟨a, ha.symm⟩
  case address =>
    rintro a rfl
    exact (rmOperand_eq_direct_iff.mp hop).2

end Sys2Proof
end

section
/-! The register names by width and index (43_resolver.md R91 to R93). -/

namespace Sys2Proof.Machine

theorem byteRegText_ne_wordRegText (idx idx' : U3) : regText (regName .byte idx) ≠ regText (regName .word idx') := by
  revert idx idx'
  decide

/-- Within a width no two indices share a name. -/
theorem regText_regName_injective (w : Width) : Function.Injective fun idx => regText (regName w idx) := by
  cases w <;> simp only [Function.Injective] <;> decide

/-- Settles O20: names of two widths differ, and within one width the index is told by the name. -/
theorem registerNamesByWidth : Obligations.RegisterNamesByWidth := by
  refine ⟨by decide, by decide, fun w w' idx idx' h => ?_⟩
  match w, w', h with
  | .byte, .word, h => exact absurd h (byteRegText_ne_wordRegText idx idx')
  | .word, .byte, h => exact absurd h.symm (byteRegText_ne_wordRegText idx' idx)
  | .byte, .byte, h | .word, .word, h => exact ⟨rfl, regText_regName_injective _ h⟩

end Sys2Proof.Machine
end

section
/-! The trailing transaction on the stream's own bytes, and what it does when they run out (45_sequencer.md R113). -/

namespace Sys2Proof.Machine

/-- Handed the bytes the stream holds at `pos`, the trailing transaction is the open instruction's trailing step. -/
theorem serve_trailing_window {i : Instr} {s : State} (hp : s.phase = .trailing) (hl : s.latch = some i.latched) :
    serve (.trailing (s.stream.window s.pos i.need)) s = exec i s :=
  trailing_canonical hp hl

/-- Settles O29: the short trailing step of every instruction is the error entry, which writes neither `out` nor `pos`. -/
theorem shortTrailingRaisesTruncated : Obligations.ShortTrailingRaisesTruncated := by
  rintro s i bytes hp hl rfl hshort
  have hserve : serve (.trailing (s.stream.window s.pos i.need)) s = .next (s.raise .truncatedStream) :=
    (serve_trailing_window hp hl).trans (exec_short hp hl hshort)
  exact ⟨_, hserve, by simp, s.raise_phase _, s.raise_out _, s.raise_pos _⟩

end Sys2Proof.Machine
end

section
/-! Leaving HALTED (60_exceptions.md R127). -/

namespace Sys2Proof.Machine

/-- Header and trailing transactions are for IDLE and TRAILING, so a step out of HALTED served a reset or began a run. -/
theorem step_next_of_halted {s t : State} (hp : s.phase = .halted) (h : step s = .next t) :
    ∃ u : State, ((∃ cs, s.calls = .reset :: cs) ∧ t = u.resetDfe) ∨
      ∃ bs, (∃ cs, s.calls = .newRun bs :: cs) ∧ t = u.newRun bs := by
  obtain ⟨u, ⟨cs, rfl⟩, hreset | hrun | hheader | ⟨l, -, htrailing⟩⟩ := step_next h
  · exact ⟨_, .inl hreset⟩
  · exact ⟨_, .inr hrun⟩
  · have hidle : s.phase = .idle := (header_next hheader).1
    rw [hp] at hidle; cases hidle
  · have htrail : s.phase = .trailing := (trailing_next htrailing).1
    rw [hp] at htrail; cases htrail

/-- Settles O35: a reset is served in every phase, and a reset or a new run is all that `step_next_of_halted` leaves. -/
theorem haltedLeftOnlyByReset : Obligations.HaltedLeftOnlyByReset := by
  refine fun s hp => ⟨fun cs hcalls => ⟨_, step_call hcalls⟩, fun t h => ?_⟩
  obtain ⟨u, ⟨hcalls, rfl⟩ | ⟨bs, ⟨cs, hcalls⟩, rfl⟩⟩ := step_next_of_halted hp h
  · exact ⟨.inl hcalls, u.resetDfe_phase, u.resetDfe_pos, u.resetDfe_err⟩
  · exact ⟨.inr ⟨bs, cs, hcalls⟩, u.newRun_phase bs, u.newRun_pos bs, u.newRun_err bs⟩

end Sys2Proof.Machine
end

section
/-! Which fields the instruction register has in each form, and which trailing data an instruction can carry
(10_state.md R16 and R18, 70_reset_and_hazards.md R146). -/

namespace Sys2Proof

/-! The forms of each field (R16). Every constructor has one form and either carries the field or not. -/

theorem d_isSome_iff (i : Instr) : i.d.isSome = true ↔ i.form = .rmReg := by
  cases i <;> simp [Instr.d, Instr.form]

theorem s_isSome_iff (i : Instr) : i.s.isSome = true ↔ i.form = .immRm := by
  cases i <;> simp [Instr.s, Instr.form]

theorem mode_isSome_iff (i : Instr) : i.mode.isSome = true ↔ i.form = .rmReg ∨ i.form = .immRm := by
  cases i <;> simp [Instr.mode, Instr.form]

/-- The ModRM byte gives `mode` and `rm` together. -/
theorem rm_isSome_eq_mode_isSome (i : Instr) : i.rm.isSome = i.mode.isSome := by
  cases i <;> rfl

theorem reg_isSome_iff (i : Instr) :
    i.reg.isSome = true ↔ i.form = .rmReg ∨ i.form = .immRm ∨ i.form = .immReg := by
  cases i <;> simp [Instr.reg, Instr.form]

theorem toMem_isSome_iff (i : Instr) : i.toMem.isSome = true ↔ i.form = .accMem := by
  cases i <;> simp [Instr.toMem, Instr.form]

theorem b1_isSome_iff (i : Instr) :
    i.b1.isSome = true ↔ i.form = .immReg ∨ i.form = .accMem ∨ i.form = .immAcc := by
  cases i <;> simp [Instr.b1, Instr.form]

/-- The form whose trailing data `a` is (R18). -/
def Attached.form : Attached → Form
  | .rmReg .. => .rmReg
  | .immRm .. => .immRm
  | .immReg .. => .immReg
  | .accMem .. => .accMem
  | .immAcc .. => .immAcc

/-- Data that fits an instruction is of its form: `fits` is false on the data of the four other forms. -/
theorem form_eq_of_fits {i : Instr} {a : Attached} (h : i.fits a = true) : a.form = i.form := by
  cases i <;> cases a <;> simp only [Instr.fits, reduceCtorEq] at h
  all_goals rfl

/-- Settles O15: the form tells the fields, and data with a displacement is of a form with a ModRM byte
(`form_eq_of_fits`). -/
theorem fieldsExistOnlyInTheirForm : Obligations.FieldsExistOnlyInTheirForm := by
  refine ⟨fun i => ⟨d_isSome_iff i, s_isSome_iff i, mode_isSome_iff i, ?rm, reg_isSome_iff i, toMem_isSome_iff i,
    b1_isSome_iff i, ?noDisp⟩, rfl⟩
  case rm => rw [rm_isSome_eq_mode_isSome, mode_isSome_iff]
  case noDisp =>
    intro a hfits hform disp imm
    rw [← form_eq_of_fits hfits] at hform
    constructor <;> rintro rfl <;> simp [Attached.form] at hform

end Sys2Proof
end

section
/-! The header chunk as fields and the fields as a header chunk: the seventeen encodings of 30_encoding.md R44 and the
errors the first two bytes can raise (40_classifier.md, 60_exceptions.md R120, R121). -/

namespace Sys2Proof

/-! The fields of a composed byte. -/

section
variable (p6 : BitVec 6) (p7 : BitVec 7) (bit1 : Bool) (w : Width) (mode : Mode) (reg rm : U3)

@[simp] theorem bit1Of_opcode6 : bit1Of (opcode6 p6 bit1 w) = bit1 := by
  revert p6; cases bit1 <;> cases w <;> decide

@[simp] theorem widthOf_opcode6 : widthOf (opcode6 p6 bit1 w) = w := by
  revert p6; cases bit1 <;> cases w <;> decide

@[simp] theorem opcode6_and_mask : opcode6 p6 bit1 w &&& 0xFC = p6 ++ (0 : BitVec 2) := by
  revert p6; cases bit1 <;> cases w <;> decide

@[simp] theorem widthOf_opcode7 : widthOf (opcode7 p7 w) = w := by
  revert p7; cases w <;> decide

@[simp] theorem opcode7_and_mask : opcode7 p7 w &&& 0xFE = p7 ++ (0 : BitVec 1) := by
  revert p7; cases w <;> decide

@[simp] theorem modeOf_modrm : modeOf (modrm mode reg rm) = mode := by
  revert reg rm; cases mode <;> decide

@[simp] theorem regOf_modrm : regOf (modrm mode reg rm) = reg := by
  revert reg rm; cases mode <;> decide

@[simp] theorem rmOf_modrm : rmOf (modrm mode reg rm) = rm := by
  revert reg rm; cases mode <;> decide

theorem immRegByte_and_mask : (0b1011#4 ++ w.bit ++ reg : BitVec (4 + 1 + 3)) &&& 0xF0 = 0xB0 := by
  revert reg; cases w <;> decide

theorem widthOfImmReg_immRegByte : widthOfImmReg (0b1011#4 ++ w.bit ++ reg : BitVec (4 + 1 + 3)) = w := by
  revert reg; cases w <;> decide

theorem regOfOpcode_immRegByte : regOfOpcode (0b1011#4 ++ w.bit ++ reg : BitVec (4 + 1 + 3)) = reg := by
  revert reg; cases w <;> decide

end

/-! A byte composed of its own fields. -/

theorem opcode6_fields (b0 : Byte) : opcode6 (b0.extractLsb' 2 6) (bit1Of b0) (widthOf b0) = b0 := by
  revert b0
  exact forall_byte (by decide +kernel)

theorem opcode7_fields (b0 : Byte) : opcode7 (b0.extractLsb' 1 7) (widthOf b0) = b0 := by
  revert b0
  exact forall_byte (by decide +kernel)

theorem immReg_fields (b0 : Byte) :
    (b0.extractLsb' 4 4 ++ (widthOfImmReg b0).bit ++ regOfOpcode b0 : BitVec (4 + 1 + 3)) = b0 := by
  revert b0
  exact forall_byte (by decide +kernel)

@[simp] theorem modrm_fields (b1 : Byte) : modrm (modeOf b1) (regOf b1) (rmOf b1) = b1 := by
  revert b1
  exact forall_byte (by decide +kernel)

/-- A field that the mask keeps whole has the value the pattern gives it. -/
theorem extractLsb'_of_and_eq {b mask bits : Byte} {start len : Nat} (h : b &&& mask = bits)
    (hmask : mask.extractLsb' start len = BitVec.allOnes len) : b.extractLsb' start len = bits.extractLsb' start len := by
  rw [← h, BitVec.extractLsb'_and, hmask, BitVec.and_allOnes]

theorem eq_opcode6_of_and_eq {b0 bits : Byte} (h : b0 &&& 0xFC = bits) :
    opcode6 (bits.extractLsb' 2 6) (bit1Of b0) (widthOf b0) = b0 := by
  rw [← extractLsb'_of_and_eq h (by decide), opcode6_fields]

theorem eq_opcode7_of_and_eq {b0 bits : Byte} (h : b0 &&& 0xFE = bits) :
    opcode7 (bits.extractLsb' 1 7) (widthOf b0) = b0 := by
  rw [← extractLsb'_of_and_eq h (by decide), opcode7_fields]

theorem eq_immReg_of_and_eq {b0 : Byte} (h : b0 &&& 0xF0 = 0xB0) :
    (0b1011#4 ++ (widthOfImmReg b0).bit ++ regOfOpcode b0 : BitVec (4 + 1 + 3)) = b0 := by
  have hhigh : b0.extractLsb' 4 4 = 0b1011#4 := extractLsb'_of_and_eq h (by decide)
  rw [← hhigh, immReg_fields]

/-! Decoding a header whose first byte matches a row. -/

theorem decode_of_row {b0 b1 : Byte} {rest : List Byte} {i : Instr} (row : ClassRow) (hmem : row ∈ classifierTable)
    (hbits : b0 &&& row.mask = row.bits) (hextract : extract row.layout b0 b1 = .ok i) :
    decode (b0 :: b1 :: rest) = .instr i rest := by
  rw [decode_two b0 b1 rest (classify_of_mem hmem hbits), hextract]

/-- Byte 0 of the form `pppppp d w` or `pppppp s w`. -/
theorem decode_opcode6 {p : BitVec 6} {bit1 : Bool} {w : Width} {b1 : Byte} {rest : List Byte} {i : Instr}
    (layout : Layout) (hmem : ⟨0xFC, p ++ (0 : BitVec 2), layout⟩ ∈ classifierTable)
    (hextract : extract layout (opcode6 p bit1 w) b1 = .ok i) :
    decode (opcode6 p bit1 w :: b1 :: rest) = .instr i rest :=
  decode_of_row _ hmem (opcode6_and_mask p bit1 w) hextract

/-- Byte 0 of the form `ppppppp w`. -/
theorem decode_opcode7 {p : BitVec 7} {w : Width} {b1 : Byte} {rest : List Byte} {i : Instr}
    (layout : Layout) (hmem : ⟨0xFE, p ++ (0 : BitVec 1), layout⟩ ∈ classifierTable)
    (hextract : extract layout (opcode7 p w) b1 = .ok i) :
    decode (opcode7 p w :: b1 :: rest) = .instr i rest :=
  decode_of_row _ hmem (opcode7_and_mask p w) hextract

theorem extract_arithImmRm {op : ArithOp} {b0 b1 : Byte} (h : sel (regOf b1) = some op) :
    extract .arithImmRm b0 b1 = .ok (rmImmInstr op (bit1Of b0) (widthOf b0) (modeOf b1) (rmOf b1)) := by
  simp only [extract, h]

theorem decode_encode (i : Instr) (rest : List Byte) : decode (encode i ++ rest) = .instr i rest := by
  cases i with
  | movRmReg => exact decode_opcode6 .movRmReg (by decide) (by simp [extract])
  | movRmImm => exact decode_opcode7 .movImmRm (by decide) (by simp [extract])
  | movRegImm w reg b1 =>
    refine decode_of_row ⟨0xF0, 0xB0, .movImmReg⟩ (by decide) (immRegByte_and_mask w reg) ?_
    rw [extract, widthOfImmReg_immRegByte, regOfOpcode_immRegByte]
  | movAccAddr w => exact decode_opcode7 .movAccMem (by decide) (by cases w <;> rfl)
  | movAddrAcc w => exact decode_opcode7 .movAccMem (by decide) (by cases w <;> rfl)
  | addRmReg => exact decode_opcode6 (.arithRmReg .add) (by decide) (by simp [extract, rmRegInstr])
  | sbbRmReg => exact decode_opcode6 (.arithRmReg .sbb) (by decide) (by simp [extract, rmRegInstr])
  | subRmReg => exact decode_opcode6 (.arithRmReg .sub) (by decide) (by simp [extract, rmRegInstr])
  | cmpRmReg => exact decode_opcode6 (.arithRmReg .cmp) (by decide) (by simp [extract, rmRegInstr])
  | addRmImm => exact decode_opcode6 .arithImmRm (by decide) (by simp [extract, sel, rmImmInstr])
  | sbbRmImm => exact decode_opcode6 .arithImmRm (by decide) (by simp [extract, sel, rmImmInstr])
  | subRmImm => exact decode_opcode6 .arithImmRm (by decide) (by simp [extract, sel, rmImmInstr])
  | cmpRmImm => exact decode_opcode6 .arithImmRm (by decide) (by simp [extract, sel, rmImmInstr])
  | addAccImm => exact decode_opcode7 (.arithImmAcc .add) (by decide) (by simp [extract, accImmInstr])
  | sbbAccImm => exact decode_opcode7 (.arithImmAcc .sbb) (by decide) (by simp [extract, accImmInstr])
  | subAccImm => exact decode_opcode7 (.arithImmAcc .sub) (by decide) (by simp [extract, accImmInstr])
  | cmpAccImm => exact decode_opcode7 (.arithImmAcc .cmp) (by decide) (by simp [extract, accImmInstr])

/-- The selector of an operation, in byte 0 and in the ModRM reg field (42_arith.md R67). -/
def ArithOp.selector : ArithOp → U3
  | .add => 0b000
  | .sbb => 0b011
  | .sub => 0b101
  | .cmp => 0b111

theorem selector_of_sel {v : U3} {op : ArithOp} (h : sel v = some op) : op.selector = v := by
  revert v
  cases op <;> decide

theorem encode_rmImmInstr (op : ArithOp) (s : Bool) (w : Width) (mode : Mode) (rm : U3) :
    encode (rmImmInstr op s w mode rm) = [opcode6 0b100000 s w, modrm mode op.selector rm] := by
  cases op <;> rfl

/-- A pattern of seven bits fixes bit 1. -/
theorem bit1Of_of_and_eq {b0 bits : Byte} (h : b0 &&& 0xFE = bits) : bit1Of b0 = bits.getLsbD 1 := by
  rw [← h]
  simp [bit1Of]

/-- A header `pppppp d w` or `pppppp s w` with a ModRM byte is composed of its fields. -/
theorem header_opcode6 {p : BitVec 6} {b0 b1 bits : Byte} (h : b0 &&& 0xFC = bits) (hp : bits.extractLsb' 2 6 = p) :
    [opcode6 p (bit1Of b0) (widthOf b0), modrm (modeOf b1) (regOf b1) (rmOf b1)] = [b0, b1] := by
  rw [← hp, eq_opcode6_of_and_eq h, modrm_fields]

/-- A header `ppppppp w` with a data byte is composed of its fields. -/
theorem header_opcode7 {p : BitVec 7} {b0 b1 bits : Byte} (h : b0 &&& 0xFE = bits) (hp : bits.extractLsb' 1 7 = p) :
    [opcode7 p (widthOf b0), b1] = [b0, b1] := by
  rw [← hp, eq_opcode7_of_and_eq h]

/-- What a row's extractor reads from a header that matches the row is encoded by the same two bytes. -/
theorem encode_of_extract {row : ClassRow} (hmem : row ∈ classifierTable) {b0 b1 : Byte} {i : Instr}
    (hbits : b0 &&& row.mask = row.bits) (hextract : extract row.layout b0 b1 = .ok i) : encode i = [b0, b1] := by
  simp only [classifierTable, List.mem_cons, List.not_mem_nil, or_false] at hmem
  rcases hmem with rfl | rfl | rfl | rfl | rfl | rfl | rfl | rfl | rfl | rfl | rfl | rfl | rfl | rfl
  · cases hextract
    rw [encode, eq_immReg_of_and_eq hbits]
  · cases hextract
    rw [encode, modrm_fields]
    exact header_opcode7 hbits rfl
  · cases hextract; exact header_opcode6 hbits rfl
  · simp only [extract, bit1Of_of_and_eq hbits] at hextract
    cases hextract; exact header_opcode7 hbits rfl
  · simp only [extract, bit1Of_of_and_eq hbits] at hextract
    cases hextract; exact header_opcode7 hbits rfl
  · cases hextract; exact header_opcode6 hbits rfl
  · cases hextract; exact header_opcode6 hbits rfl
  · cases hextract; exact header_opcode6 hbits rfl
  · cases hextract; exact header_opcode6 hbits rfl
  · rcases hsel : sel (regOf b1) with _ | op
    · simp [extract, hsel] at hextract
    · cases (extract_arithImmRm hsel).symm.trans hextract
      rw [encode_rmImmInstr, selector_of_sel hsel]
      exact header_opcode6 hbits rfl
  · cases hextract; exact header_opcode7 hbits rfl
  · cases hextract; exact header_opcode7 hbits rfl
  · cases hextract; exact header_opcode7 hbits rfl
  · cases hextract; exact header_opcode7 hbits rfl

/-- Settles O13: both directions go through the row of the byte, on whose pattern the encoder's byte 0 is built. -/
theorem headerEncodeDecodeRoundTrip : Obligations.HeaderEncodeDecodeRoundTrip := by
  refine ⟨fun i rest _ => decode_encode i rest, fun bytes rest i h => ?_⟩
  obtain ⟨b0, b1, row, rfl, hrow, hextract⟩ := decode_instr h
  obtain ⟨hmem, hbits⟩ := mem_of_classify hrow
  rw [encode_of_extract hmem hbits hextract]
  rfl

/-! The obligations on the fields of the header and on its errors. -/

/-- Settles O1: the table, row by row. -/
theorem fourteenClassifierRows : Obligations.FourteenClassifierRows := rfl

/-- Settles O2: both sides are decidable for each of the 256 bytes. -/
theorem classifyAcceptsNineRanges : Obligations.ClassifyAcceptsNineRanges :=
  forall_byte (by decide +kernel)

/-- Settles O3: a reordered table has the same rows, and at most one of them matches a byte. -/
theorem classifyIndependentOfRowOrder : Obligations.ClassifyIndependentOfRowOrder := by
  intro b0 rows hperm
  rcases hfind : rows.find? (ClassRow.accepts b0) with _ | row
  · refine (List.find?_eq_none.mpr fun r hr => ?_).symm
    exact List.find?_eq_none.mp hfind r (hperm.mem_iff.mpr hr)
  · have haccepts : row.accepts b0 = true := List.find?_some hfind
    have hmem : row ∈ classifierTable := hperm.mem_iff.mp (List.mem_of_find?_eq_some hfind)
    exact (classify_of_mem hmem (by simpa [ClassRow.accepts] using haccepts)).symm

/-- Settles O4: of the three errors of `decode_error` the other two come from a classified byte. -/
theorem unrecognizedOpcodeIffUnclassified : Obligations.UnrecognizedOpcodeIffUnclassified := by
  refine fun b0 rest => ⟨fun h => ?_, fun h => ?_⟩
  · obtain ⟨_, _, hbytes, ⟨-, hnone⟩ | ⟨hk, -⟩ | ⟨_, _, _, hk, -⟩⟩ := decode_error h
    · cases hbytes; exact hnone
    · cases hk
    · cases hk
  · cases rest with
    | nil => simp only [decode, h]
    | cons b1 rest => exact decode_two_none b0 b1 rest h

theorem sel_eq_none_iff (v : U3) : sel v = none ↔ v = 1 ∨ v = 2 ∨ v = 4 ∨ v = 6 := by
  revert v
  decide

/-- The bytes 100000sw are 80 to 83. -/
theorem and_eq_arithImmRm_iff (b0 : Byte) : b0 &&& 0xFC = 0x80 ↔ 0x80 ≤ b0.toNat ∧ b0.toNat ≤ 0x83 := by
  revert b0
  exact forall_byte (by decide +kernel)

/-- `UnknownArithmeticOp` is the answer exactly to 100000sw with a selector that names no operation. -/
theorem decode_unknownArithmeticOp_iff (b0 b1 : Byte) (rest : List Byte) :
    decode (b0 :: b1 :: rest) = .error .unknownArithmeticOp ↔ b0 &&& 0xFC = 0x80 ∧ sel (regOf b1) = none := by
  refine ⟨fun h => ?_, fun ⟨hbits, hsel⟩ => ?_⟩
  · obtain ⟨_, _, hbytes, ⟨hk, -⟩ | ⟨hk, -⟩ | ⟨_, _, row, -, hmore, hrow, hlayout, hsel⟩⟩ := decode_error h
    · cases hk
    · cases hk
    · cases hbytes
      cases hmore
      obtain ⟨hmem, hbits⟩ := mem_of_classify hrow
      obtain rfl : row = ⟨0xFC, 0x80, .arithImmRm⟩ :=
        (by decide : ∀ r ∈ classifierTable, r.layout = .arithImmRm → r = ⟨0xFC, 0x80, .arithImmRm⟩) row hmem hlayout
      exact ⟨hbits, hsel⟩
  · rw [decode_two b0 b1 rest (classify_of_mem (row := ⟨0xFC, 0x80, .arithImmRm⟩) (by decide) hbits)]
    simp only [extract, hsel]

/-- Settles O5: from one byte the only errors are the other two. -/
theorem unknownArithmeticOpExactly : Obligations.UnknownArithmeticOpExactly := by
  refine ⟨fun b0 b1 rest => ?_, fun b0 h => ?_⟩
  · rw [decode_unknownArithmeticOp_iff, and_eq_arithImmRm_iff, sel_eq_none_iff, and_assoc]
    rfl
  · obtain ⟨_, _, hbytes, ⟨hk, -⟩ | ⟨hk, -⟩ | ⟨_, _, _, -, hmore, -⟩⟩ := decode_error h
    · cases hk
    · cases hk
    · cases hbytes; cases hmore

/-- The rows with an operation fix bits 5:3 of byte 0, at the operation's selector. -/
theorem selector_of_row (op : ArithOp) :
    ∀ row ∈ classifierTable, row.layout = .arithRmReg op ∨ row.layout = .arithImmAcc op →
      row.mask.extractLsb' 3 3 = BitVec.allOnes 3 ∧ sel (selOfOpcode row.bits) = some op := by
  cases op <;> decide

/-- Settles O7: in the eight rows with an operation the mask keeps bits 5:3. -/
theorem opcodeSelectorAgreesWithRow : Obligations.OpcodeSelectorAgreesWithRow := by
  intro b0 row op hrow hlayout
  obtain ⟨hmem, hbits⟩ := mem_of_classify hrow
  obtain ⟨hmask, hsel⟩ := selector_of_row op row hmem hlayout
  rw [selOfOpcode, extractLsb'_of_and_eq hbits hmask]
  exact hsel

theorem modeOf_eq_of_bits {b1 : Byte} {mode : Mode} (h : mode.bits = b1.extractLsb' 6 2) : modeOf b1 = mode := by
  rw [modeOf, ← h, Mode.ofBits_bits]

/-- Settles O10: each pattern is a row, and the fields are the row's extractor. -/
theorem rmRegFieldsOfBytes : Obligations.RmRegFieldsOfBytes := by
  rintro b0 b1 rest mode hmode d w reg rm
  obtain rfl := modeOf_eq_of_bits hmode
  exact ⟨(decode_of_row ⟨0xFC, 0x88, .movRmReg⟩ (by decide) · rfl),
    (decode_of_row ⟨0xFC, 0x00, .arithRmReg .add⟩ (by decide) · rfl),
    (decode_of_row ⟨0xFC, 0x18, .arithRmReg .sbb⟩ (by decide) · rfl),
    (decode_of_row ⟨0xFC, 0x28, .arithRmReg .sub⟩ (by decide) · rfl),
    (decode_of_row ⟨0xFC, 0x38, .arithRmReg .cmp⟩ (by decide) · rfl)⟩

/-- Byte 0 of the form 100000sw with a selector in ModRM reg that names `op`. -/
theorem decode_arithImmRm {op : ArithOp} {b0 b1 : Byte} (rest : List Byte) (hbits : b0 &&& 0xFC = 0x80)
    (hsel : sel (regOf b1) = some op) :
    decode (b0 :: b1 :: rest) =
      .instr (rmImmInstr op (bit1Of b0) (widthOf b0) (modeOf b1) (rmOf b1)) rest :=
  decode_of_row ⟨0xFC, 0x80, .arithImmRm⟩ (by decide) hbits (extract_arithImmRm hsel)

/-- Settles O11: the arithmetic instructions share one row, and the selector picks among them. -/
theorem rmImmFieldsOfBytes : Obligations.RmImmFieldsOfBytes := by
  rintro b0 b1 rest mode hmode s w reg rm
  obtain rfl := modeOf_eq_of_bits hmode
  exact ⟨(decode_of_row ⟨0xFE, 0xC6, .movImmRm⟩ (by decide) · rfl),
    fun hbits hreg => decode_arithImmRm (op := .add) rest hbits (congrArg sel hreg),
    fun hbits hreg => decode_arithImmRm (op := .sbb) rest hbits (congrArg sel hreg),
    fun hbits hreg => decode_arithImmRm (op := .sub) rest hbits (congrArg sel hreg),
    fun hbits hreg => decode_arithImmRm (op := .cmp) rest hbits (congrArg sel hreg)⟩

/-- Settles O12: six rows; bit 1, which tells the two ACC_MEM rows apart, is fixed by their patterns. -/
theorem accumulatorFieldsOfBytes : Obligations.AccumulatorFieldsOfBytes := by
  intro b0 b1 rest w
  refine ⟨fun h => decode_of_row ⟨0xFE, 0xA0, .movAccMem⟩ (by decide) h ?_,
    fun h => decode_of_row ⟨0xFE, 0xA2, .movAccMem⟩ (by decide) h ?_,
    (decode_of_row ⟨0xFE, 0x04, .arithImmAcc .add⟩ (by decide) · rfl),
    (decode_of_row ⟨0xFE, 0x1C, .arithImmAcc .sbb⟩ (by decide) · rfl),
    (decode_of_row ⟨0xFE, 0x2C, .arithImmAcc .sub⟩ (by decide) · rfl),
    (decode_of_row ⟨0xFE, 0x3C, .arithImmAcc .cmp⟩ (by decide) · rfl)⟩
  all_goals simp only [extract, bit1Of_of_and_eq h]; rfl

/-- Settles O14: seven words, each run through the decoder. -/
theorem writtenOutWordsDecode : Obligations.WrittenOutWordsDecode := by
  unfold Obligations.WrittenOutWordsDecode
  decide

end Sys2Proof
end

section
/-! The bytes after the header chunk (43_resolver.md R83 to R90): how many there are, and that they tell the data they
encode. -/

namespace Sys2Proof

/-! The displacement and the immediate are read back from their bytes (R89, R90). -/

theorem lowByte_eq_extractLsb' (v : U16) : lowByte v = v.extractLsb' 0 8 := by
  apply BitVec.eq_of_toNat_eq
  simp [lowByte]

theorem sext16_low {v : U16} (h : isSextByte v = true) : sext16 (v.extractLsb' 0 8) = v := by
  rw [isSextByte, beq_iff_eq, lowByte_eq_extractLsb'] at h
  exact h.symm

theorem dispValue_dispBytes {mode : Mode} {rm : U3} {disp : Option U16} (h : dispFits mode rm disp = true) :
    dispValue (dispBytes mode disp) = disp := by
  cases disp with
  | none => rfl
  | some v =>
    cases mode with
    | memByteDisp => exact congrArg some (sext16_low h)
    | memNoDisp | memWordDisp | register => exact congrArg some (le16_bytes v)

theorem length_dispBytes {mode : Mode} {rm : U3} {disp : Option U16} (h : dispFits mode rm disp = true) :
    (dispBytes mode disp).length = dispCount mode rm := by
  cases disp <;> cases mode <;> simp_all [dispFits, dispBytes, dispCount, leBytes]

theorem immValue_immBytes {s : Bool} {w : Width} {imm : Imm} (h : immFits s w imm = true) :
    immValue w s (immBytes s imm) = some imm := by
  cases imm with
  | byte v =>
    obtain rfl : w = .byte := by simpa [immFits] using h
    rfl
  | word v =>
    obtain ⟨rfl, hsext⟩ : w = .word ∧ (s = false ∨ isSextByte v = true) := by simpa [immFits] using h
    cases s with
    | false => exact congrArg (some ∘ Imm.word) (le16_bytes v)
    | true => exact congrArg (some ∘ Imm.word) (sext16_low (hsext.resolve_left nofun))

theorem length_immBytes {s : Bool} {w : Width} {imm : Imm} (h : immFits s w imm = true) :
    (immBytes s imm).length = immCountSigned s w := by
  cases s <;> cases w <;> cases imm <;> simp_all [immFits, immBytes, immCountSigned, immCount, leBytes]

/-- In the forms without a ModRM byte the header chunk holds the immediate's first byte (R86). -/
theorem immBytes_of_immFitsHeader {w : Width} {b1 : Byte} {imm : Imm} (h : immFitsHeader w b1 imm = true) :
    immFits false w imm = true ∧ immBytes false imm = b1 :: (immBytes false imm).drop 1 := by
  cases imm <;> simp_all [immFitsHeader, immFits, immBytes, leBytes, lowByte_eq_extractLsb']

/-! Data that fits an instruction, as bytes (R88). -/

theorem dispBytes_inj {mode : Mode} {rm : U3} {disp disp' : Option U16} (h : dispFits mode rm disp = true)
    (h' : dispFits mode rm disp' = true) (heq : dispBytes mode disp = dispBytes mode disp') : disp = disp' := by
  rw [← dispValue_dispBytes h, heq, dispValue_dispBytes h']

theorem immBytes_inj {s : Bool} {w : Width} {imm imm' : Imm} (h : immFits s w imm = true)
    (h' : immFits s w imm' = true) (heq : immBytes s imm = immBytes s imm') : imm = imm' := by
  rw [← Option.some_inj, ← immValue_immBytes h, heq, immValue_immBytes h']

theorem immBytes_drop_inj {w : Width} {b1 : Byte} {imm imm' : Imm} (h : immFitsHeader w b1 imm = true)
    (h' : immFitsHeader w b1 imm' = true) (heq : (immBytes false imm).drop 1 = (immBytes false imm').drop 1) :
    imm = imm' := by
  obtain ⟨hfits, hbytes⟩ := immBytes_of_immFitsHeader h
  obtain ⟨hfits', hbytes'⟩ := immBytes_of_immFitsHeader h'
  exact immBytes_inj hfits hfits' (by rw [hbytes, hbytes', heq])

theorem addr_inj {addr addr' : U16} (hlow : lowByte addr = lowByte addr')
    (heq : (leBytes addr).drop 1 = (leBytes addr').drop 1) : addr = addr' := by
  rw [lowByte_eq_extractLsb', lowByte_eq_extractLsb'] at hlow
  have hhigh : addr.extractLsb' 8 8 = addr'.extractLsb' 8 8 := List.singleton_inj.mp heq
  rw [← le16_bytes addr, hlow, hhigh, le16_bytes]

/-- The trailing bytes of an instruction tell the data they encode, among the data that fits it. -/
theorem encodeTrailing_inj {i : Instr} {a a' : Attached} (h : i.fits a = true) (h' : i.fits a' = true)
    (heq : encodeTrailing i a = encodeTrailing i a') : a = a' := by
  cases i
  case movRmReg | addRmReg | sbbRmReg | subRmReg | cmpRmReg =>
    cases a <;> simp only [Instr.fits, reduceCtorEq] at h
    cases a' <;> simp only [Instr.fits, reduceCtorEq] at h'
    exact congrArg Attached.rmReg (dispBytes_inj h h' heq)
  case movRmImm | addRmImm | sbbRmImm | subRmImm | cmpRmImm =>
    cases a <;> simp only [Instr.fits, reduceCtorEq, Bool.and_eq_true] at h
    cases a' <;> simp only [Instr.fits, reduceCtorEq, Bool.and_eq_true] at h'
    obtain ⟨hd, hi⟩ := List.append_inj heq ((length_dispBytes h.1).trans (length_dispBytes h'.1).symm)
    exact congrArg₂ Attached.immRm (dispBytes_inj h.1 h'.1 hd) (immBytes_inj h.2 h'.2 hi)
  case movRegImm =>
    cases a <;> simp only [Instr.fits, reduceCtorEq] at h
    cases a' <;> simp only [Instr.fits, reduceCtorEq] at h'
    exact congrArg Attached.immReg (immBytes_drop_inj h h' heq)
  case addAccImm | sbbAccImm | subAccImm | cmpAccImm =>
    cases a <;> simp only [Instr.fits, reduceCtorEq] at h
    cases a' <;> simp only [Instr.fits, reduceCtorEq] at h'
    exact congrArg Attached.immAcc (immBytes_drop_inj h h' heq)
  case movAccAddr | movAddrAcc =>
    cases a <;> simp only [Instr.fits, reduceCtorEq, beq_iff_eq] at h
    cases a' <;> simp only [Instr.fits, reduceCtorEq, beq_iff_eq] at h'
    exact congrArg Attached.accMem (addr_inj (h.trans h'.symm) heq)

theorem length_immBytes_drop {w : Width} {b1 : Byte} {imm : Imm} (h : immFitsHeader w b1 imm = true) :
    ((immBytes false imm).drop 1).length = immCount w - 1 := by
  rw [List.length_drop, length_immBytes (immBytes_of_immFitsHeader h).1]
  rfl

/-- The data of an instruction is as many bytes as its header asks for (R85 to R87). -/
theorem length_encodeTrailing {i : Instr} {a : Attached} (h : i.fits a = true) :
    (encodeTrailing i a).length = i.need := by
  cases i
  case movRmReg | addRmReg | sbbRmReg | subRmReg | cmpRmReg =>
    cases a <;> simp only [Instr.fits, reduceCtorEq] at h
    exact length_dispBytes h
  case movRmImm | addRmImm | sbbRmImm | subRmImm | cmpRmImm =>
    cases a <;> simp only [Instr.fits, reduceCtorEq, Bool.and_eq_true] at h
    exact List.length_append.trans (congrArg₂ (· + ·) (length_dispBytes h.1) (length_immBytes h.2))
  case movRegImm | addAccImm | sbbAccImm | subAccImm | cmpAccImm =>
    cases a <;> simp only [Instr.fits, reduceCtorEq] at h
    exact (length_immBytes_drop h).trans (by simp [Instr.need, Instr.form, Instr.ndisp, Instr.nimm])
  case movAccAddr | movAddrAcc =>
    cases a <;> simp only [Instr.fits, reduceCtorEq] at h
    rfl

/-- The trailing step on the bytes of fitting data finishes with that data. -/
theorem finish_encodeTrailing {i : Instr} {a : Attached} (h : i.fits a = true) :
    ∃ f, i.finish (i.lead ++ encodeTrailing i a) = some f ∧ f.data = a ∧ f.sound i (encodeTrailing i a) := by
  obtain ⟨f, hfinish, hsound⟩ := Machine.finish_spec i (length_encodeTrailing h)
  exact ⟨f, hfinish, encodeTrailing_inj hsound.1 h hsound.2.2, hsound⟩

end Sys2Proof
end

section
/-! The sizes of an instruction (30_encoding.md R46, 43_resolver.md R85 to R87). -/

namespace Sys2Proof

open Laws

theorem lengthRange (i : Instr) : LengthRange.Statement i := by
  cases i
  case movRmReg => exact LengthRange.movRmReg ..
  case movRmImm => exact LengthRange.movRmImm ..
  case movRegImm => exact LengthRange.movRegImm ..
  case movAccAddr => exact LengthRange.movAccAddr ..
  case movAddrAcc => exact LengthRange.movAddrAcc ..
  case addRmReg => exact LengthRange.addRmReg ..
  case addRmImm => exact LengthRange.addRmImm ..
  case addAccImm => exact LengthRange.addAccImm ..
  case sbbRmReg => exact LengthRange.sbbRmReg ..
  case sbbRmImm => exact LengthRange.sbbRmImm ..
  case sbbAccImm => exact LengthRange.sbbAccImm ..
  case subRmReg => exact LengthRange.subRmReg ..
  case subRmImm => exact LengthRange.subRmImm ..
  case subAccImm => exact LengthRange.subAccImm ..
  case cmpRmReg => exact LengthRange.cmpRmReg ..
  case cmpRmImm => exact LengthRange.cmpRmImm ..
  case cmpAccImm => exact LengthRange.cmpAccImm ..

theorem length_encode (i : Instr) : (encode i).length = 2 := (lengthRange i).1

theorem need_le (i : Instr) : i.need ≤ 4 := (lengthRange i).2.1

theorem immCountSigned_eq_two_iff {s : Bool} {w : Width} :
    immCountSigned s w = 2 ↔ w = .word ∧ s = false := by
  cases s <;> cases w <;> decide

theorem immCountSigned_eq_one_iff {s : Bool} {w : Width} :
    immCountSigned s w = 1 ↔ ¬(w = .word ∧ s = false) := by
  cases s <;> cases w <;> decide

/-- `need` by form (R87). -/
theorem need_eq_of_modrm {i : Instr} (h : i.form = .rmReg ∨ i.form = .immRm) : i.need = i.ndisp + i.nimm := by
  rcases h with h | h <;> simp [Instr.need, h]

theorem nimm_rmReg {i : Instr} (h : i.form = .rmReg) : i.nimm = 0 := by
  cases i <;> cases h <;> rfl

theorem nimm_immRm {i : Instr} (h : i.form = .immRm) : ∃ s, i.s = some s ∧ i.nimm = immCountSigned s i.w := by
  cases i <;> cases h <;> exact ⟨_, rfl, rfl⟩

theorem counts_immHeader {i : Instr} (h : i.form = .immReg ∨ i.form = .immAcc) :
    i.ndisp = 0 ∧ i.nimm = immCount i.w ∧ i.need = immCount i.w - 1 := by
  have hnimm : i.ndisp = 0 ∧ i.nimm = immCount i.w := by
    cases i
    case movRegImm | addAccImm | sbbAccImm | subAccImm | cmpAccImm => exact ⟨rfl, rfl⟩
    all_goals simp [Instr.form] at h
  refine ⟨hnimm.1, hnimm.2, ?_⟩
  rcases h with h | h <;> simp [Instr.need, h, hnimm]

theorem counts_accMem {i : Instr} (h : i.form = .accMem) : i.ndisp = 2 ∧ i.nimm = 0 ∧ i.need = 1 := by
  cases i <;> cases h <;> exact ⟨rfl, rfl, rfl⟩

/-- The forms with a single operand of data are short of four bytes. -/
theorem form_of_need_eq_four {i : Instr} (h : i.need = 4) : i.form = .immRm := by
  obtain ⟨-, -, hndisp, hnimm⟩ := lengthRange i
  rcases hform : i.form
  case immRm => rfl
  case rmReg =>
    rw [need_eq_of_modrm (.inl hform), nimm_rmReg hform] at h
    omega
  case immReg =>
    obtain ⟨-, hi, hneed⟩ := counts_immHeader (.inl hform)
    omega
  case immAcc =>
    obtain ⟨-, hi, hneed⟩ := counts_immHeader (.inr hform)
    omega
  case accMem =>
    rw [(counts_accMem hform).2.2] at h
    cases h

/-- Settles O23: the counts of each form, and no form but IMM_RM reaches four bytes. -/
theorem trailingCountsByForm : Obligations.TrailingCountsByForm := by
  intro i
  obtain ⟨-, hneed, hndisp, hnimm⟩ := lengthRange i
  refine ⟨hndisp, hnimm, hneed, fun h => ?rmReg, fun h => ?immRm, fun h => ?immHeader, counts_accMem, ?four⟩
  case rmReg => exact ⟨nimm_rmReg h, by rw [need_eq_of_modrm (.inl h), nimm_rmReg h, Nat.add_zero]⟩
  case immRm =>
    obtain ⟨s, hs, hcount⟩ := nimm_immRm h
    rw [hs, hcount, Option.some_inj]
    exact ⟨hcount ▸ need_eq_of_modrm (.inr h), immCountSigned_eq_two_iff, immCountSigned_eq_one_iff⟩
  case immHeader =>
    obtain ⟨hd, hi, hn⟩ := counts_immHeader h
    exact ⟨hd, fun hw => by simp [hi, hn, hw, immCount], fun hw => by simp [hi, hn, hw, immCount]⟩
  case four =>
    refine ⟨fun h4 => ?_, fun ⟨hform, hd, hi⟩ => by rw [need_eq_of_modrm (.inr hform), hd, hi]⟩
    have hform := form_of_need_eq_four h4
    rw [need_eq_of_modrm (.inr hform)] at h4
    exact ⟨hform, by omega, by omega⟩

end Sys2Proof
end

section
/-! Whole runs (45_sequencer.md R114 to R116): inductions on `Run`. -/

namespace Sys2Proof.Machine

/-! What the stream holds at an instruction boundary. -/

section
variable {bytes : List Byte} {a : Nat} {i : Instr} {rest : List Byte}

/-- A decoded header is the whole chunk. -/
theorem chunk_eq_encode (h : decode ((bytes.drop a).take 2) = .instr i rest) :
    (bytes.drop a).take 2 = encode i ∧ rest = [] := by
  have hbytes := headerEncodeDecodeRoundTrip.2 _ _ _ h
  have hlen : rest.length = 0 := by
    have := congrArg List.length hbytes
    rw [List.length_append, length_encode] at this
    have := List.length_take_le 2 (bytes.drop a)
    omega
  obtain rfl := List.eq_nil_of_length_eq_zero hlen
  exact ⟨by simpa using hbytes, rfl⟩

theorem header_in_stream (h : decode ((bytes.drop a).take 2) = .instr i rest) : a + 2 ≤ bytes.length := by
  have hlen := congrArg List.length (chunk_eq_encode h).1
  rw [length_encode, List.length_take, List.length_drop] at hlen
  omega

theorem instr_in_stream (h : decode ((bytes.drop a).take 2) = .instr i rest)
    (hn : ((bytes.drop (a + 2)).take i.need).length = i.need) : a + 2 + i.need ≤ bytes.length := by
  have := header_in_stream h
  rw [List.length_take, List.length_drop] at hn
  omega

theorem drop_eq_take_append_drop (l : List Byte) (a n : Nat) : l.drop a = (l.drop a).take n ++ l.drop (a + n) := by
  rw [← List.drop_drop, List.take_append_drop]

/-- The bytes of a completed instruction stand at its offset, before the rest of the stream. -/
theorem drop_eq_encodeComplete {f : Finished} (h : decode ((bytes.drop a).take 2) = .instr i rest)
    (hs : f.sound i ((bytes.drop (a + 2)).take i.need)) :
    bytes.drop a = encodeComplete i f.data ++ bytes.drop (a + 2 + i.need) := by
  calc bytes.drop a
    _ = (bytes.drop a).take 2 ++ bytes.drop (a + 2) := drop_eq_take_append_drop ..
    _ = encode i ++ ((bytes.drop (a + 2)).take i.need ++ bytes.drop (a + 2 + i.need)) := by
      rw [(chunk_eq_encode h).1, ← drop_eq_take_append_drop]
    _ = encodeComplete i f.data ++ bytes.drop (a + 2 + i.need) := by
      rw [encodeComplete, hs.2.2, List.append_assoc]

/-- Where an encoded header stands at a boundary, the chunk decodes to it. -/
theorem decode_chunk {more : List Byte} (h : bytes.drop a = encode i ++ more) :
    decode ((bytes.drop a).take 2) = .instr i [] ∧ bytes.drop (a + 2) = more := by
  rw [← List.drop_drop, h]
  refine ⟨?_, List.drop_left' (length_encode i)⟩
  rw [List.take_left' (length_encode i), ← List.append_nil (encode i), decode_encode]

end

/-! How a run ends. -/

/-- From every boundary there is a run. -/
theorem Run.exists (bytes : List Byte) (a : Nat) : ∃ rs e p z, Run bytes a rs e p z := by
  obtain ⟨t, rs, -, -, -, hrun⟩ := runToEnd_spec bytes (bytes.length - a) (bytes.length - a + 1)
    { State.reset.newRun bytes with pos := a } rfl rfl rfl rfl le_rfl (Nat.lt_succ_self _)
  exact ⟨rs, _, _, _, hrun⟩

variable {bytes : List Byte} {a : Nat} {rs : List Record} {e : Option ErrorReg} {p : Phase} {z : Nat}

theorem Run.ends (h : Run bytes a rs e p z) (ha : a ≤ bytes.length) :
    (p = .idle ∧ e = none ∧ z = bytes.length) ∨ (p = .halted ∧ e.isSome = true) := by
  induction h with
  | done a h =>
    have hnil := congrArg List.length (decode_endOfStream h)
    rw [List.length_take, List.length_drop, List.length_nil] at hnil
    exact .inl ⟨rfl, rfl, by omega⟩
  | header | short => exact .inr ⟨rfl, rfl⟩
  | more a i rest f rs e p z h hn hf hs tail ih => exact ih (instr_in_stream h hn)

/-- Settles O46: the model's run is a `Run`, and `Run.ends` tells its end. -/
theorem everyRunEndsCleanOrHalted : Obligations.EveryRunEndsCleanOrHalted := by
  intro bytes
  obtain ⟨t, ht, hstream, hrun⟩ := runStream_spec bytes
  have hlen : t.stream.length = bytes.length := by rw [hstream, Memory.length_ofBytes]
  refine ⟨t, ht, hlen, ?_⟩
  rcases hrun.ends (Nat.zero_le _) with ⟨hp, he, hz⟩ | ⟨hp, he⟩
  · exact .inl ⟨⟨hp, hz.trans hlen.symm, he⟩, fun ⟨hp', _⟩ => by rw [hp] at hp'; cases hp'⟩
  · exact .inr ⟨⟨hp, Option.isSome_iff_exists.mp he⟩, fun ⟨hp', _⟩ => by rw [hp] at hp'; cases hp'⟩

theorem Run.error_ne_invalidMode (h : Run bytes a rs e p z) {err : ErrorReg} (he : e = some err) :
    err.kind ≠ .invalidMode := by
  induction h with
  | done => cases he
  | header a k h =>
    cases he
    obtain ⟨_, _, -, ⟨rfl, -⟩ | ⟨rfl, -⟩ | ⟨_, _, _, rfl, -⟩⟩ := decode_error h <;> nofun
  | short => cases he; nofun
  | more _ _ _ _ _ _ _ _ _ _ _ _ _ ih => exact ih he

/-- Settles O53: a run ends with an error of the header decoder or with `TruncatedStream`. -/
theorem noRunRecordsInvalidMode : Obligations.NoRunRecordsInvalidMode := by
  intro bytes rs e h
  obtain ⟨p, z, hrun⟩ := decodeStream_run h
  exact hrun.error_ne_invalidMode rfl

/-! The records and the stream. -/

/-- Where the records of a run stop: at the failing instruction, or at the end of the stream. -/
def endOffset (bytes : List Byte) (e : Option ErrorReg) : Nat :=
  match e with
  | none => bytes.length
  | some e => e.offset

theorem Run.tiles (h : Run bytes a rs e p z) (ha : a ≤ bytes.length) : tiles a (endOffset bytes e) rs := by
  induction h with
  | done a h =>
    rcases (Run.done a h).ends ha with ⟨-, -, hz⟩ | ⟨hp, -⟩
    · exact hz
    · cases hp
  | header | short => rfl
  | more a i rest f rs e p z h hn hf hs tail ih =>
    exact ⟨rfl, by rw [← Nat.add_assoc]; exact ih (instr_in_stream h hn)⟩

theorem Run.length_of_mem (h : Run bytes a rs e p z) : ∀ r ∈ rs, 2 ≤ r.len ∧ r.len ≤ 6 := by
  induction h with
  | done | header | short => exact List.forall_mem_nil _
  | more a i rest f rs e p z h hn hf hs tail ih =>
    refine List.forall_mem_cons.mpr ⟨?_, ih⟩
    have := need_le i
    simp only
    omega

/-- Settles O47: each record begins where the one before it ends. -/
theorem recordsTileTheStream : Obligations.RecordsTileTheStream := by
  intro bytes rs e h
  obtain ⟨p, z, hrun⟩ := decodeStream_run h
  exact ⟨hrun.tiles (Nat.zero_le _), hrun.length_of_mem⟩

theorem Run.encode_records (h : Run bytes a rs e p z) (he : e = none) :
    rs.flatMap (fun r => encodeComplete r.instr r.data) = bytes.drop a := by
  induction h with
  | done a h =>
    rcases List.take_eq_nil_iff.mp (decode_endOfStream h) with h2 | hnil
    · cases h2
    · rw [hnil]; rfl
  | header | short => cases he
  | more a i rest f rs e p z h hn hf hs tail ih =>
    rw [List.flatMap_cons, ih he]
    exact (drop_eq_encodeComplete h hs).symm

/-- Settles O48: each record encodes to the bytes it was read from. -/
theorem cleanRunReencodesToItsStream : Obligations.CleanRunReencodesToItsStream := by
  intro bytes rs h
  obtain ⟨p, z, hrun⟩ := decodeStream_run h
  exact hrun.encode_records rfl

/-! Encoded programs. -/

theorem Run.of_program (prog : List (Instr × Attached)) (hprog : ∀ x ∈ prog, x.1.fits x.2 = true) (bytes : List Byte)
    (a : Nat) (h : bytes.drop a = prog.flatMap fun x => encodeComplete x.1 x.2) :
    ∃ rs z, Run bytes a rs none .idle z ∧ rs.map (fun r => (r.instr, r.data)) = prog := by
  induction prog generalizing a with
  | nil => exact ⟨[], a, .done a (by rw [h]; rfl), rfl⟩
  | cons x prog ih =>
    obtain ⟨i, data⟩ := x
    obtain ⟨hfits, hprog⟩ := List.forall_mem_cons.mp hprog
    rw [List.flatMap_cons, encodeComplete, List.append_assoc] at h
    obtain ⟨hdecode, hafter⟩ := decode_chunk h
    have htrailing : (bytes.drop (a + 2)).take i.need = encodeTrailing i data := by
      rw [hafter, List.take_left' (length_encodeTrailing hfits)]
    obtain ⟨f, hf, hdata, hs⟩ := finish_encodeTrailing hfits
    obtain ⟨rs, z, hrun, hmap⟩ := ih hprog (a + 2 + i.need) (by
      rw [← List.drop_drop, hafter, List.drop_left' (length_encodeTrailing hfits)])
    refine ⟨_, z, .more a i [] f rs none .idle z hdecode ?_ ?_ ?_ hrun, ?_⟩
    · rw [htrailing, length_encodeTrailing hfits]
    · rw [htrailing, hf]
    · rw [htrailing]; exact hs
    · rw [List.map_cons, hmap, hdata]

/-- Settles O49: the program stands at offset 0 of its own bytes. -/
theorem encodedProgramDecodesToItself : Obligations.EncodedProgramDecodesToItself := by
  intro prog hprog
  obtain ⟨rs, z, hrun, hmap⟩ := Run.of_program prog (fun x hx => (hprog x hx).2) _ 0 rfl
  exact ⟨rs, hrun.decodeStream, hmap⟩

/-- One byte of a header is classified, and then the second is missing. -/
theorem decode_take_one_encode (i : Instr) : decode ((encode i).take 1) = .error .truncatedStream := by
  obtain ⟨b0, b1, row, hbytes, hrow, -⟩ := decode_instr (decode_encode i [])
  rw [List.append_nil] at hbytes
  rw [hbytes, List.take_succ_cons, List.take_zero]
  simp only [decode, hrow]

/-- Settles O52: cut after one byte the header is short, and cut later the trailing transaction is. -/
theorem cutInstructionIsTruncated : Obligations.CutInstructionIsTruncated := by
  intro i data n _ hfits hpos hlt
  obtain rfl | hn : n = 1 ∨ 2 ≤ n := by omega
  · refine (Run.header 0 .truncatedStream ?_).decodeStream
    have hfirst : (encodeComplete i data).take 1 = (encode i).take 1 :=
      List.take_append_of_le_length (by rw [length_encode]; decide)
    rw [List.drop_zero, hfirst, List.take_take]
    exact decode_take_one_encode i
  · have hcut : (encodeComplete i data).take n = encode i ++ (encodeTrailing i data).take (n - 2) := by
      rw [encodeComplete, List.take_append, length_encode, List.take_of_length_le (by rw [length_encode]; exact hn)]
    obtain ⟨hdecode, hafter⟩ := decode_chunk (a := 0) hcut
    refine (Run.short 0 i [] hdecode ?_).decodeStream
    rw [encodeComplete, List.length_append, length_encode, length_encodeTrailing hfits] at hlt
    rw [hafter, List.length_take, List.length_take]
    omega

/-! Two streams that agree on their first bytes. -/

section
variable {bytes' : List Byte} {n : Nat}

theorem take_drop_of_agree (hagree : bytes.take n = bytes'.take n) {x m : Nat} (h : x + m ≤ n) :
    (bytes.drop x).take m = (bytes'.drop x).take m := by
  have hwindow (l : List Byte) : (l.drop x).take m = ((l.take n).drop x).take m := by
    rw [List.drop_take, List.take_take, min_eq_left (by omega)]
  rw [hwindow bytes, hagree, ← hwindow]

/-- An instruction that ends within the agreed bytes is completed on both streams alike. -/
theorem Run.more_of_agree (hagree : bytes.take n = bytes'.take n) {i : Instr} {rest : List Byte} {f : Finished}
    (hle : a + 2 + i.need ≤ n) (h : decode ((bytes.drop a).take 2) = .instr i rest)
    (hn : ((bytes.drop (a + 2)).take i.need).length = i.need)
    (hf : i.finish (i.lead ++ (bytes.drop (a + 2)).take i.need) = some f)
    (hs : f.sound i ((bytes.drop (a + 2)).take i.need)) (tail : Run bytes' (a + 2 + i.need) rs e p z) :
    Run bytes' a (⟨i, a, 2 + i.need, f.data, f.dst, f.src⟩ :: rs) e p z := by
  rw [take_drop_of_agree hagree (by omega)] at h
  rw [take_drop_of_agree hagree hle] at hn hf hs
  exact .more a i rest f rs e p z h hn hf hs tail

theorem Run.append_of_agree (hagree : bytes.take bytes.length = bytes'.take bytes.length)
    (h : Run bytes a rs e p z) (he : e = none) : ∃ rs' e' p' z', Run bytes' a (rs ++ rs') e' p' z' := by
  induction h with
  | done a => exact Run.exists bytes' a
  | header | short => cases he
  | more a i rest f rs e p z h hn hf hs tail ih =>
    obtain ⟨rs', e', p', z', hrun⟩ := ih he
    exact ⟨rs', e', p', z', .more_of_agree hagree (instr_in_stream h hn) h hn hf hs hrun⟩

theorem Run.le_ioff (h : Run bytes a rs e p z) : ∀ r ∈ rs, a ≤ r.ioff := by
  induction h with
  | done | header | short => exact List.forall_mem_nil _
  | more a i rest f rs e p z h hn hf hs tail ih =>
    exact List.forall_mem_cons.mpr ⟨le_rfl, fun r hr => by have := ih r hr; omega⟩

theorem Run.getElem?_of_agree (hagree : bytes.take n = bytes'.take n) (h : Run bytes a rs e p z)
    {rs' : List Record} {e' : Option ErrorReg} {p' : Phase} {z' : Nat} (h' : Run bytes' a rs' e' p' z')
    {k : Nat} {r : Record} (hr : rs[k]? = some r) (hend : r.ioff + r.len ≤ n) : rs'[k]? = some r := by
  induction h generalizing rs' e' p' z' k with
  | done | header | short => cases hr
  | more a i rest f rs e p z h hn hf hs tail ih =>
    have hle : a + 2 + i.need ≤ n := by
      cases k with
      | zero =>
        obtain rfl := Option.some_inj.mp hr
        simpa only [Nat.add_assoc] using hend
      | succ k =>
        have := tail.le_ioff r (List.mem_of_getElem? hr)
        omega
    obtain ⟨rs2, e2, p2, z2, hrun2⟩ := Run.exists bytes' (a + 2 + i.need)
    obtain ⟨rfl, -⟩ := h'.unique (.more_of_agree hagree hle h hn hf hs hrun2)
    cases k with
    | zero => exact hr
    | succ k => exact ih hrun2 hr

end

/-- Settles O50: the stream and its extension agree on the bytes of the stream. -/
theorem extendedStreamKeepsRecords : Obligations.ExtendedStreamKeepsRecords := by
  intro bytes ext rs h
  obtain ⟨p, z, hrun⟩ := decodeStream_run h
  have hagree : bytes.take bytes.length = (bytes ++ ext).take bytes.length := by
    rw [List.take_length, List.take_left]
  obtain ⟨rs', e, _, _, hext⟩ := hrun.append_of_agree hagree rfl
  exact ⟨rs', e, hext.decodeStream⟩

/-- Settles O51: the record and all before it end within the agreed bytes. -/
theorem recordsDependOnConsumedBytesOnly : Obligations.RecordsDependOnConsumedBytesOnly := by
  intro a b n rs rs' e e' hagree ha hb k r hr hend
  obtain ⟨_, _, hrun⟩ := decodeStream_run ha
  obtain ⟨_, _, hrun'⟩ := decodeStream_run hb
  exact hrun.getElem?_of_agree hagree hrun' hr hend

end Sys2Proof.Machine
end

section
/-! The invariant of the machine: each transaction keeps it (10_state.md R14 to R19). -/

namespace Sys2Proof.Machine

variable {s t : State}

/-! What each update of the state does to the invariant. -/

/-- Serving a call changes nothing the invariant speaks of. -/
theorem State.Inv.setCalls (h : s.Inv) (cs : List Call) : ({ s with calls := cs } : State).Inv :=
  ⟨h.stream_dense, h.pos_in_stream, h.records_wf, h.idle, h.trailing, h.halted⟩

theorem State.Inv.resetDfe (h : s.Inv) : s.resetDfe.Inv where
  stream_dense := h.stream_dense
  pos_in_stream := Nat.zero_le _
  records_wf := h.records_wf
  idle _ := ⟨rfl, rfl⟩
  trailing := nofun
  halted := nofun

theorem State.newRun_inv (s : State) (bs : List Byte) : (s.newRun bs).Inv where
  stream_dense := Memory.ofBytes_dense bs
  pos_in_stream := Nat.zero_le _
  records_wf := List.forall_mem_nil _
  idle _ := ⟨rfl, rfl⟩
  trailing := nofun
  halted := nofun

theorem State.Inv.endOfStream (h : s.Inv) : s.endOfStream.Inv :=
  ⟨h.stream_dense, h.pos_in_stream, h.records_wf, h.idle, h.trailing, h.halted⟩

theorem State.Inv.raiseHeader (h : s.Inv) {k : ErrorKind} (hk : k ≠ .invalidMode) : (s.raiseHeader k).Inv where
  stream_dense := h.stream_dense
  pos_in_stream := h.pos_in_stream
  records_wf := h.records_wf
  idle := nofun
  trailing := nofun
  halted _ := ⟨k, rfl, hk, .inl rfl⟩

theorem State.Inv.raiseTruncated (h : s.Inv) (hp : s.phase = .trailing) : (s.raise .truncatedStream).Inv where
  stream_dense := h.stream_dense
  pos_in_stream := h.pos_in_stream
  records_wf := h.records_wf
  idle := nofun
  trailing := nofun
  halted _ := ⟨.truncatedStream, rfl, nofun, .inr ⟨rfl, (h.trailing hp).2.1⟩⟩

theorem State.Inv.openHeader (h : s.Inv) (hp : s.phase = .idle) (hpos : s.pos + 2 ≤ s.stream.length) (i : Instr) :
    (s.openHeader i.latched).Inv where
  stream_dense := h.stream_dense
  pos_in_stream := hpos
  records_wf := h.records_wf
  idle := nofun
  trailing _ := ⟨(h.idle hp).2, rfl, i, rfl⟩
  halted := nofun

theorem State.Inv.emit (h : s.Inv) (hp : s.phase = .trailing) {i : Instr} {f : Finished}
    (hpos : s.pos + i.need ≤ s.stream.length) (hfits : i.fits f.data = true)
    (hops : i.operands f.data = some (f.dst, f.src)) : (s.emit i.latched (f.record s i.latched)).Inv where
  stream_dense := h.stream_dense
  pos_in_stream := hpos
  records_wf := List.forall_mem_append.mpr ⟨h.records_wf, List.forall_mem_singleton.mpr ⟨rfl, hfits, hops⟩⟩
  idle _ := ⟨rfl, (h.trailing hp).1⟩
  trailing := nofun
  halted := nofun

/-! What the stream of the invariant gives a transaction. -/

/-- A full window lies in the stream. -/
theorem State.Inv.window_in_stream (h : s.Inv) {n : Nat} (hn : n ≤ (s.stream.window s.pos n).length) :
    s.pos + n ≤ s.stream.length := by
  have := h.pos_in_stream
  rw [Memory.length_window_dense h.stream_dense] at hn
  omega

theorem decode_error_ne_invalidMode {bytes : List Byte} {k : ErrorKind} (h : decode bytes = .error k) :
    k ≠ .invalidMode := by
  obtain ⟨_, _, -, ⟨rfl, -⟩ | ⟨rfl, -⟩ | ⟨_, _, _, rfl, -⟩⟩ := decode_error h <;> nofun

theorem finish_sound {i : Instr} {f : Finished} {bytes : List Byte} (hlen : bytes.length = i.need)
    (h : i.finish (i.lead ++ bytes) = some f) : f.sound i bytes := by
  obtain ⟨f', hf', hs⟩ := finish_spec i hlen
  rw [h] at hf'
  cases hf'
  exact hs

theorem State.Inv.header_next (h : s.Inv) (hstep : header (s.stream.window s.pos Config.headerChunk) s = .next t) :
    t.Inv := by
  obtain ⟨hp, -, ⟨-, rfl⟩ | ⟨k, hd, rfl⟩ | ⟨i, rest, hd, hexec⟩⟩ := Machine.header_next hstep
  · exact h.endOfStream
  · exact h.raiseHeader (decode_error_ne_invalidMode hd)
  · rw [exec_idle i hp] at hexec
    cases hexec
    refine h.openHeader hp (h.window_in_stream ?_) i
    obtain ⟨b0, b1, _, hchunk, -⟩ := decode_instr hd
    simp [show s.stream.window s.pos 2 = b0 :: b1 :: rest from hchunk]

theorem State.Inv.exec_trailing (h : s.Inv) (hp : s.phase = .trailing) {i : Instr} (hexec : exec i s = .next t) :
    t.Inv := by
  obtain ⟨hidle, -⟩ | ⟨-, -, -, rfl⟩ | ⟨f, -, -, hn, hf, rfl⟩ := exec_next hexec
  · rw [hp] at hidle; cases hidle
  · exact h.raiseTruncated hp
  · have hlen := Nat.le_antisymm (Memory.length_window_le ..) hn
    obtain ⟨hfits, hops, -⟩ := finish_sound hlen hf
    exact h.emit hp (h.window_in_stream hn) hfits hops

/-- Settles O45: by the four transactions a step can be. -/
theorem everyStepKeepsInvariant : Obligations.EveryStepKeepsInvariant := by
  intro s t h hstep
  obtain ⟨_, ⟨cs, rfl⟩, ⟨-, rfl⟩ | ⟨bs, -, rfl⟩ | hheader | ⟨l, -, htrailing⟩⟩ := step_next hstep
  · exact (h.setCalls cs).resetDfe
  · exact State.newRun_inv _ bs
  · exact (h.setCalls cs).header_next hheader
  · obtain ⟨hp, _, -, -, hexec⟩ := trailing_next htrailing
    exact (h.setCalls cs).exec_trailing hp hexec

/-- Settles O44: the empty stream is one, and no instruction is open. -/
theorem invariantHoldsAtReset : Obligations.InvariantHoldsAtReset where
  stream_dense := rfl
  pos_in_stream := le_rfl
  records_wf := List.forall_mem_nil _
  idle _ := ⟨rfl, rfl⟩
  trailing := nofun
  halted := nofun

/-- In IDLE the canonical caller's transaction is accepted, whatever the chunk decodes to. -/
theorem step_idle_next (hc : s.calls = []) (hp : s.phase = .idle) : ∃ t, step s = .next t := by
  rw [step_idle hc hp, header_canonical hp]
  rcases decode (s.stream.window s.pos Config.headerChunk) with ⟨i, rest⟩ | _ | k
  · exact ⟨_, exec_idle i hp⟩
  · exact ⟨_, rfl⟩
  · exact ⟨_, rfl⟩

/-- The trailing step of the open instruction finishes or is short. -/
theorem exec_trailing_next {i : Instr} (hp : s.phase = .trailing) (hl : s.latch = some i.latched) :
    ∃ t, exec i s = .next t := by
  by_cases hshort : (s.stream.window s.pos i.need).length < i.need
  · exact ⟨_, exec_short hp hl hshort⟩
  · have hlen := Nat.le_antisymm (Memory.length_window_le ..) (Nat.le_of_not_lt hshort)
    obtain ⟨f, hf, -⟩ := finish_spec i hlen
    exact ⟨_, exec_full hp hl hlen hf⟩

/-- Settles O41: outside HALTED the caller's transaction fits the phase, and the invariant gives TRAILING its open
instruction. -/
theorem canonicalCallerNeverRefused : Obligations.CanonicalCallerNeverRefused := by
  intro s h hc hhalted
  rcases hp : s.phase
  case idle => exact step_idle_next hc hp
  case trailing =>
    obtain ⟨-, -, i, hl⟩ := h.trailing hp
    rw [step_trailing hc hp hl]
    exact exec_trailing_next hp hl
  case halted => exact absurd hp hhalted

end Sys2Proof.Machine
end

section
/-! The frame of an instruction and of a step (45_sequencer.md sections 2 and 3, 20_memory.md R30, R32). -/

namespace Sys2Proof.Machine

/-- Settles O30: the three outcomes of `exec_next`, field by field. -/
theorem instructionFrame : Obligations.InstructionFrame := by
  intro i s t hexec
  obtain ⟨hp, rfl⟩ | ⟨hp, -, -, rfl⟩ | ⟨f, hp, -, -, -, rfl⟩ := exec_next hexec
  · exact ⟨rfl, fun _ => rfl, rfl, .inl ⟨hp, rfl, rfl, rfl, rfl⟩⟩
  · exact ⟨rfl, fun _ => rfl, rfl, .inr (.inr ⟨hp, rfl, rfl, rfl, rfl, rfl⟩)⟩
  · exact ⟨rfl, fun _ => rfl, rfl, .inr (.inl ⟨hp, rfl, rfl, rfl, _, rfl⟩)⟩

/-- A step is a reset, the start of a run, an end of the stream, a header error, or the step of an instruction. -/
theorem step_next_cases {s t : State} (h : step s = .next t) : ∃ u : State, (∃ cs, u = { s with calls := cs }) ∧
    (((∃ cs, s.calls = .reset :: cs) ∧ t = u.resetDfe) ∨ (∃ bs, (∃ cs, s.calls = .newRun bs :: cs) ∧ t = u.newRun bs) ∨
      t = u.endOfStream ∨ (∃ k, t = u.raiseHeader k) ∨ ∃ i, exec i u = .next t) := by
  obtain ⟨u, hu, hreset | hrun | hheader | ⟨l, -, htrailing⟩⟩ := step_next h
  · exact ⟨u, hu, .inl hreset⟩
  · exact ⟨u, hu, .inr (.inl hrun)⟩
  · obtain ⟨-, -, ⟨-, ht⟩ | ⟨k, -, ht⟩ | ⟨i, _, -, hexec⟩⟩ := header_next hheader
    · exact ⟨u, hu, .inr (.inr (.inl ht))⟩
    · exact ⟨u, hu, .inr (.inr (.inr (.inl ⟨k, ht⟩)))⟩
    · exact ⟨u, hu, .inr (.inr (.inr (.inr ⟨i, hexec⟩)))⟩
  · obtain ⟨-, l, -, -, hexec⟩ := trailing_next htrailing
    exact ⟨u, hu, .inr (.inr (.inr (.inr ⟨l.ir, hexec⟩)))⟩

/-- An instruction hands over at most one record. -/
theorem exec_next_out {i : Instr} {s t : State} (h : exec i s = .next t) :
    ∃ more, t.out = s.out ++ more ∧ more.length ≤ 1 := by
  obtain ⟨-, -, -, ⟨-, -, -, hout, -⟩ | ⟨-, -, -, -, r, hout⟩ | ⟨-, -, -, hout, -⟩⟩ := instructionFrame i s t h
  · exact ⟨[], by rw [hout, List.append_nil], Nat.zero_le _⟩
  · exact ⟨[r], hout, le_rfl⟩
  · exact ⟨[], by rw [hout, List.append_nil], Nat.zero_le _⟩

/-- Settles O42: only the start of a run writes the stream or takes records back. -/
theorem stepKeepsStreamAndRecords : Obligations.StepKeepsStreamAndRecords := by
  intro s t h hrun
  obtain ⟨_, ⟨cs, rfl⟩, ⟨-, rfl⟩ | ⟨bs, ⟨cs', hc⟩, -⟩ | rfl | ⟨k, rfl⟩ | ⟨i, hexec⟩⟩ := step_next_cases h
  · exact ⟨rfl, fun _ => rfl, [], by simp, Nat.zero_le _⟩
  · exact absurd hc (hrun bs cs')
  · exact ⟨rfl, fun _ => rfl, [], by simp, Nat.zero_le _⟩
  · exact ⟨rfl, fun _ => rfl, [], by simp, Nat.zero_le _⟩
  · obtain ⟨hstream, hread, -⟩ := instructionFrame _ _ _ hexec
    exact ⟨hstream, hread, exec_next_out (s := { s with calls := cs }) hexec⟩

theorem exec_next_pos {i : Instr} {s t : State} (h : exec i s = .next t) : s.pos ≤ t.pos ∧ t.pos ≤ s.pos + 4 := by
  have hneed := need_le i
  obtain ⟨-, rfl⟩ | ⟨-, -, -, rfl⟩ | ⟨f, -, -, -, -, rfl⟩ := exec_next h
  · simp
  · simp
  · simpa [Instr.latched] using hneed

/-- Settles O43: an instruction moves `pos` over its header or over its trailing bytes, and an error does not move it. -/
theorem positionNeverMovesBack : Obligations.PositionNeverMovesBack := by
  intro s t h hreset hrun
  obtain ⟨_, ⟨cs, rfl⟩, ⟨⟨cs', hc⟩, -⟩ | ⟨bs, ⟨cs', hc⟩, -⟩ | rfl | ⟨k, rfl⟩ | ⟨i, hexec⟩⟩ := step_next_cases h
  · exact absurd hc (hreset cs')
  · exact absurd hc (hrun bs cs')
  · exact ⟨le_rfl, Nat.le_add_right ..⟩
  · exact ⟨le_rfl, Nat.le_add_right ..⟩
  · exact exec_next_pos (s := { s with calls := cs }) hexec

end Sys2Proof.Machine
end

section
/-! The step in each phase, and the caller's preparation of a run (45_sequencer.md sections 2 to 5, 60_exceptions.md
section 2, 70_reset_and_hazards.md). -/

namespace Sys2Proof.Machine

/-- Settles O31: the canonical header transaction dispatches on what its chunk decodes to. -/
theorem stepRunsDecodedHeader : Obligations.StepRunsDecodedHeader := by
  intro s i rest hc hp hdecode _
  rw [step_idle hc hp, header_canonical hp, show decode (s.stream.window s.pos Config.headerChunk) = _ from hdecode]

/-- Settles O32: the canonical trailing transaction hands over the open instruction's own bytes. -/
theorem stepRunsOpenInstruction : Obligations.StepRunsOpenInstruction :=
  fun _ _ hc hp hl => step_trailing hc hp hl

/-- Settles O33: the chunk is empty where the stream has no byte. -/
theorem endOfStreamChangesNothing : Obligations.EndOfStreamChangesNothing := by
  intro s hc hp hread
  have hwindow : s.stream.window s.pos Config.headerChunk = [] := by simp [Config.headerChunk, Memory.window, hread]
  rw [step_idle hc hp, header_canonical hp, hwindow]
  rfl

/-- A header error is the whole error entry. -/
theorem step_header_error {s : State} {k : ErrorKind} (hc : s.calls = []) (hp : s.phase = .idle)
    (hdecode : decode (s.stream.window s.pos 2) = .error k) : step s = .next (s.raiseHeader k) := by
  rw [step_idle hc hp, header_canonical hp, show decode (s.stream.window s.pos Config.headerChunk) = _ from hdecode]

theorem extract_eq_ok {b0 b1 : Byte} {row : ClassRow} (hrow : classify b0 = some row)
    (h : ¬(b0 &&& 0xFC = 0x80 ∧ sel (regOf b1) = none)) : ∃ i, extract row.layout b0 b1 = .ok i := by
  rcases hextract : extract row.layout b0 b1 with k | i
  · obtain ⟨rfl, -⟩ := extract_error hextract
    have hdecode : decode [b0, b1] = .error .unknownArithmeticOp := by rw [decode_two b0 b1 [] hrow, hextract]
    exact absurd ((decode_unknownArithmeticOp_iff b0 b1 []).mp hdecode) h
  · exact ⟨i, rfl⟩

/-- Settles O34: the decoder's answer to the chunk, clause by clause. -/
theorem headerErrorsByPriority : Obligations.HeaderErrorsByPriority := by
  intro s b0 more raised hc hp hwindow hraised
  have hraise {k : ErrorKind} (hdecode : decode (b0 :: more) = .error k) : step s = .next (raised k) := by
    rw [hraised, step_header_error hc hp (hwindow ▸ hdecode)]
    rfl
  refine ⟨fun hnone => ?_, ?_, ?_, ?_⟩
  · exact hraise ((unrecognizedOpcodeIffUnclassified b0 more).mpr hnone)
  · rintro hsome rfl
    obtain ⟨row, hrow⟩ := Option.ne_none_iff_exists'.mp hsome
    exact hraise (by simp only [decode, hrow])
  · rintro b1 rfl hbits hsel
    exact hraise ((decode_unknownArithmeticOp_iff b0 b1 []).mpr ⟨hbits, hsel⟩)
  · rintro b1 rfl hsome hnot
    obtain ⟨row, hrow⟩ := Option.ne_none_iff_exists'.mp hsome
    obtain ⟨i, hextract⟩ := extract_eq_ok hrow hnot
    have hdecode : decode [b0, b1] = .instr i [] := by rw [decode_two b0 b1 [] hrow, hextract]
    exact ⟨i, hdecode, (stepRunsDecodedHeader s i [] hc hp (hwindow ▸ hdecode) rfl).trans (exec_idle i hp)⟩

/-- Settles O36: the canonical caller has no call for HALTED. -/
theorem haltedCanonicalStepFaults : Obligations.HaltedCanonicalStepFaults :=
  fun _ hp hc => step_halted hc hp

/-- Settles O37: a pending reset is served whatever the phase. -/
theorem resetAcceptedInEveryPhase : Obligations.ResetAcceptedInEveryPhase :=
  fun _ _ hc => step_call hc

/-- Settles O38: field by field. -/
theorem resetStateValues : Obligations.ResetStateValues :=
  ⟨rfl, rfl, rfl, rfl, rfl, rfl, rfl, rfl, rfl, rfl⟩

/-- Settles O39: the placed stream reads as its bytes. -/
theorem newRunStartsOnItsStream : Obligations.NewRunStartsOnItsStream := by
  intro s bs cs hc
  exact ⟨_, step_call hc, Memory.read_ofBytes bs, Memory.ofBytes_dense bs, Memory.length_ofBytes bs,
    rfl, rfl, rfl, rfl, rfl, rfl, rfl⟩

/-- Fewer bytes than the stream has are bytes withheld. -/
theorem checkBytes_short {s : State} {n : Nat} {bytes : List Byte}
    (h : bytes.length < (s.stream.window s.pos n).length) : checkBytes s n bytes = some .bytesWithheld := by
  have hne : bytes ≠ s.stream.window s.pos n := fun heq => absurd h (by rw [heq]; exact lt_irrefl _)
  simp only [checkBytes, hne, if_false, h, if_true]

/-- Settles O40: the checks of `header` and of `trailing`, in their order. -/
theorem protocolBreachesRefused : Obligations.ProtocolBreachesRefused := by
  refine ⟨fun s chunk => ⟨fun hp => ?_, fun hp hlong => ?_, fun hp hlen hshort => ?_⟩,
    fun s bytes => ⟨fun hp => ?_, fun l hp hl => ⟨fun hlong => ?_, fun hlen hshort => ?_⟩⟩⟩
  · simp [serve, header, hp]
  · simp [serve, header, hp, Config.headerChunk, hlong]
  · simp [serve, header, hp, Config.headerChunk, Nat.not_lt.mpr hlen, checkBytes_short hshort]
  · simp [serve, trailing, hp]
  · simp [serve, trailing, hp, hl, hlong]
  · simp [serve, trailing, hp, hl, Nat.not_lt.mpr hlen, checkBytes_short hshort]

end Sys2Proof.Machine
end

section
/-! The two steps of each instruction with its whole next state (41_mov.md, 42_arith.md): the form gives the registers and
the trailing step, and `exec_idle` and `exec_full` do the rest. -/

namespace Sys2Proof.Machine

/-- The header step, written out for the registers `i` latches. -/
theorem exec_header {i : Instr} {nd ni n : Nat} (hlatched : i.latched = ⟨i, nd, ni, n⟩) {s : State} (hp : s.phase = .idle) :
    exec i s = .next { s with
      ioff := s.pos, latch := some ⟨i, nd, ni, n⟩, pos := s.pos + 2, phase := .trailing,
      result := some (.header i.family n) } := by
  rw [exec_idle i hp, hlatched]
  rfl

/-- The trailing step, written out for the registers `i` has latched and what it finishes with. -/
theorem exec_trailing {i : Instr} {nd ni n : Nat} (hlatched : i.latched = ⟨i, nd, ni, n⟩) {s : State}
    (hp : s.phase = .trailing) (hl : s.latch = some ⟨i, nd, ni, n⟩) {bytes : List Byte}
    (hwindow : s.stream.window s.pos n = bytes) (hlen : bytes.length = n) {f : Finished}
    (hf : i.finish (i.lead ++ bytes) = some f) :
    exec i s = .next { s with
      pos := s.pos + n, phase := .idle, latch := none,
      out := s.out ++ [⟨i, s.ioff, 2 + n, f.data, f.dst, f.src⟩],
      result := some (.record ⟨i, s.ioff, 2 + n, f.data, f.dst, f.src⟩) } := by
  have hneed : i.need = n := congrArg Latch.need hlatched
  rw [← hlatched] at hl
  rw [exec_full hp hl (f := f) (by rw [hneed, hwindow, hlen]) (by rw [hneed, hwindow, hf]), hlatched]
  rfl

/-- Settles O24: the five instructions latch and finish alike; the displacement bytes give the rm operand. -/
theorem rmRegInstructionsComplete : Obligations.RmRegInstructionsComplete := by
  rintro d w mode reg rm i hi s n bytes rfl
  obtain ⟨hlatched, hfinish, hlead⟩ : i.latched = ⟨i, dispCount mode rm, 0, dispCount mode rm⟩ ∧
      i.finish = finishRmReg d w mode reg rm ∧ i.lead = [] := by
    rcases hi with rfl | rfl | rfl | rfl | rfl <;> exact ⟨rfl, rfl, rfl⟩
  refine ⟨exec_header hlatched, fun hp hl hwindow hlen => ?_⟩
  obtain ⟨rmop, hrmop⟩ := rmOperand_isSome mode w rm hlen
  refine ⟨rmop, _, hrmop, rfl, ?_⟩
  rw [exec_trailing hlatched hp hl hwindow hlen (by rw [hfinish, hlead, List.nil_append, finishRmReg, hrmop])]
  cases d <;> rfl

/-- Settles O25: the tail is cut after the displacement bytes. -/
theorem rmImmInstructionsComplete : Obligations.RmImmInstructionsComplete := by
  rintro sx w mode reg rm i hi s nd ni dbytes ibytes rfl hni
  have hni : ni = immCountSigned sx w := by rw [hni]; cases sx <;> cases w <;> rfl
  subst hni
  obtain ⟨hlatched, hfinish, hlead⟩ :
      i.latched = ⟨i, dispCount mode rm, immCountSigned sx w, dispCount mode rm + immCountSigned sx w⟩ ∧
      i.finish = finishRmImm sx w mode rm (dispCount mode rm) ∧ i.lead = [] := by
    rcases hi with ⟨rfl, rfl⟩ | rfl | rfl | rfl | rfl <;> exact ⟨rfl, rfl, rfl⟩
  refine ⟨exec_header hlatched, fun hp hl hwindow hd hi => ?_⟩
  obtain ⟨rmop, hrmop⟩ := rmOperand_isSome mode w rm hd
  obtain ⟨imm, himm⟩ := immValue_isSome sx w hi
  refine ⟨rmop, imm, _, hrmop, himm, rfl, exec_trailing hlatched hp hl hwindow ?_ (f := ⟨_, _, _⟩) ?_⟩
  · rw [List.length_append, hd, hi]
  · rw [hfinish, hlead, List.nil_append, finishRmImm, List.take_left' hd, List.drop_left' hd, hrmop, himm]

/-- Settles O27: the address is the byte of the chunk and the one after it. -/
theorem accMemInstructionsComplete : Obligations.AccMemInstructionsComplete := by
  intro w b1 hi i hinstr s
  rcases hinstr with rfl | rfl
  · refine ⟨exec_header rfl, fun hp hl hwindow => ⟨le16 b1 hi, _, toNat_le16 b1 hi, rfl, ?_⟩⟩
    rw [if_pos rfl, if_pos rfl]
    exact exec_trailing rfl hp hl hwindow rfl (f := ⟨_, _, _⟩) rfl
  · refine ⟨exec_header rfl, fun hp hl hwindow => ⟨le16 b1 hi, _, toNat_le16 b1 hi, rfl, ?_⟩⟩
    rw [if_neg nofun, if_neg nofun]
    exact exec_trailing rfl hp hl hwindow rfl (f := ⟨_, _, _⟩) rfl

/-- Settles O28: the immediate is the byte of the chunk and, in the word form, the one after it. -/
theorem accImmInstructionsComplete : Obligations.AccImmInstructionsComplete := by
  intro w b1 more imm i hi hdata s
  obtain ⟨hmore, himm⟩ : immCount w = more.length + 1 ∧ immValue w false (b1 :: more) = some imm := by
    obtain ⟨rfl, rfl, rfl⟩ | ⟨rfl, hi, v, rfl, rfl, hv⟩ := hdata
    · exact ⟨rfl, rfl⟩
    · have hle : le16 b1 hi = v := BitVec.eq_of_toNat_eq ((toNat_le16 b1 hi).trans hv.symm)
      exact ⟨rfl, congrArg (some ∘ Imm.word) hle⟩
  obtain ⟨hlatched, hfinish, hlead, hfamily⟩ : i.latched = ⟨i, 0, more.length + 1, more.length⟩ ∧
      i.finish = finishAccImm w ∧ i.lead = [b1] ∧ i.family = .arith := by
    rcases hi with rfl | rfl | rfl | rfl <;>
      simp [Instr.latched, Instr.ndisp, Instr.nimm, Instr.need, Instr.form, Instr.finish, Instr.lead, Instr.b1,
        Instr.family, hmore]
  refine ⟨fun hp => hfamily ▸ exec_header hlatched hp, fun hp hl hwindow => ⟨_, rfl, ?_⟩⟩
  exact exec_trailing hlatched hp hl hwindow rfl (f := ⟨_, _, _⟩) (by simp [hfinish, hlead, finishAccImm, himm, accumulator])

end Sys2Proof.Machine
end

section
/-! The values of the data bytes, and the text of a record (43_resolver.md R89, R90, R94, 44_renderer.md). -/

namespace Sys2Proof

/-! Values. -/

theorem toInt_sext16 (b : Byte) : (sext16 b).toInt = b.toInt := BitVec.toInt_signExtend_of_le (by decide)

theorem toNat_sext16 (b : Byte) : (sext16 b).toNat = if b.toNat < 128 then b.toNat else b.toNat + 0xFF00 := by
  revert b
  exact forall_byte (by decide +kernel)

/-- Settles O18: one byte is sign-extended, two are little-endian. -/
theorem displacementValueSigned : Obligations.DisplacementValueSigned :=
  ⟨rfl, fun b => ⟨_, rfl, toInt_sext16 b, toNat_sext16 b⟩, fun lo hi => ⟨_, rfl, toNat_le16 lo hi⟩⟩

/-- Settles O19: by the three cases of `immValue`. -/
theorem immediateValueByWidth : Obligations.ImmediateValueByWidth :=
  ⟨fun _ _ => rfl, fun lo hi => ⟨_, rfl, toNat_le16 lo hi⟩, fun b => ⟨_, rfl, toInt_sext16 b⟩⟩

namespace Machine

/-- Settles O21: the table, entry by entry. -/
theorem effectiveAddressTable : Obligations.EffectiveAddressTable := ⟨by decide, rfl, rfl⟩

/-! The line of a record. -/

theorem render_eq (r : Record) :
    render r = mnemonicText r.instr.op ++ " " ++ (sizeText r ++ operandText r.dst) ++ ", " ++ operandText r.src := by
  simp only [render, String.append_assoc]

theorem render_of_op {r : Record} {op : Op} (h : r.instr.op = op) :
    render r = mnemonicText op ++ " " ++ (sizeText r ++ operandText r.dst) ++ ", " ++ operandText r.src := by
  rw [render_eq, h]

/-- Settles O54: the line, with the mnemonic of each operation. -/
theorem renderedLineShape : Obligations.RenderedLineShape :=
  fun _ => ⟨render_of_op, render_of_op, render_of_op, render_of_op, render_of_op⟩

/-- Settles O55: the keyword depends on the form and on the kind of the destination. -/
theorem sizeKeywordExactly : Obligations.SizeKeywordExactly := by
  refine fun r => ⟨?_, fun h => ?_⟩
  · rintro ⟨hform, ⟨rm, disp, hdst⟩ | ⟨a, hdst⟩⟩ <;> cases hw : r.instr.w <;> simp [sizeText, hform, hdst, hw]
  · rw [sizeText]
    split
    · exact absurd ⟨‹_›, .inl ⟨_, _, ‹_›⟩⟩ h
    · exact absurd ⟨‹_›, .inr ⟨_, ‹_›⟩⟩ h
    · rfl

/-! The text of a memory operand (44_renderer.md R102, R103). -/

/-- What the text of a displacement puts between the expression and the bracket. -/
def dispText : Option U16 → String
  | none => ""
  | some v => " + " ++ decimal v.toInt

theorem operandText_mem (rm : U3) (disp : Option U16) :
    operandText (.mem rm disp) = "[" ++ eaText rm ++ dispText disp ++ "]" := by
  cases disp <;> simp [operandText, dispText, String.append_assoc]

theorem decimal_injective : Function.Injective decimal := fun m n h => by
  rwa [decimal, decimal, Int.toString_eq_repr, Int.toString_eq_repr, Int.repr_inj] at h

theorem dispText_injective : Function.Injective dispText := by
  rintro (_ | v) (_ | v') h
  · rfl
  · have h := h.symm
    simp [dispText] at h
  · simp [dispText] at h
  · exact congrArg some (BitVec.eq_of_toInt_eq (decimal_injective (String.append_right_inj _ |>.mp h)))

/-- Settles O56: the brackets and the expression are the same on both sides, and a numeral tells its number. -/
theorem memoryTextTellsDisplacement : Obligations.MemoryTextTellsDisplacement := by
  refine ⟨fun rm disp disp' h => ?_, fun a a' h => ?_⟩
  · rw [operandText_mem, operandText_mem, String.append_left_inj, String.append_right_inj] at h
    exact dispText_injective h
  · simp only [operandText, String.append_left_inj, String.append_right_inj] at h
    exact BitVec.eq_of_toNat_eq (Int.ofNat_inj.mp (decimal_injective h))

/-- Settles O57: the seven tables are finite, and no error kind has the code 0. -/
theorem numericCodes : Obligations.NumericCodes := by
  refine ⟨rfl, rfl, rfl, rfl, rfl, rfl, rfl, fun s => ?_⟩
  rcases herr : s.err with _ | ⟨k, offset⟩
  · simp [errKindCode, herr]
  · cases k <;> simp [errKindCode, herr, errorCode]

end Machine

end Sys2Proof
end
